-- ==== Sys2Proof/Word.lean ====
section
/-! DEFINITION. The machine's word. Every 16-bit quantity of the hardware (A, D, PC, the ALU's operands and result,
the instruction word, the memory buses) is a `Word` (R5). Index 0 is the least significant bit (R7). -/

namespace Sys2Proof

/-- A 16-bit value; `w.getLsbD i` is bit i of it (R7), `w.toNat` its unsigned reading `uval` and `w.toInt` its
two's-complement reading `sval` (R8). -/
abbrev Word := BitVec 16

end Sys2Proof
end

