-- ==== Sys2Proof/Machine/Gates.lean ====
section
/-! DEFINITION. The four gate primitives (R140 to R143) and their bus-wide variants (R145, R146). -/

namespace Sys2Proof.Machine

/-- NOT (R140). -/
def notGate (x : Bool) : Bool := !x

/-- AND (R141). -/
def andGate (x y : Bool) : Bool := x && y

/-- OR (R142). -/
def orGate (x y : Bool) : Bool := x || y

/-- The 2-way MUX (R143): `input2` when `control` is 1, else `input1`. -/
def muxGate (control input1 input2 : Bool) : Bool := if control then input2 else input1

/-- Bus-wide NOT (R145). -/
def busNot {n : Nat} (x : BitVec n) : BitVec n := ~~~x

/-- Bus-wide AND (R145). -/
def busAnd {n : Nat} (x y : BitVec n) : BitVec n := x &&& y

/-- Bus-wide OR (R145). -/
def busOr {n : Nat} (x y : BitVec n) : BitVec n := x ||| y

/-- Bus-wide MUX (R146): one control bit shared by all lanes. -/
def busMux {n : Nat} (control : Bool) (input1 input2 : BitVec n) : BitVec n := if control then input2 else input1

end Sys2Proof.Machine
end

