-- ==== Sys2Proof/Machine/Clocked.lean ====
section
/-! DEFINITION. The clocked components (R210 to R217). Only `current` is state; the pending next value is the function below
(R221), and the edge that commits it is the CPU's (R218). -/

namespace Sys2Proof.Machine

/-- A Register's value after an edge (R211): load = 1 takes the input. -/
def registerNext (current input : Word) (load : Bool) : Word := busMux load current input

/-- A Counter's value after an edge (R215): reset before load before +1, modulo 2^16. -/
def counterNext (current input : Word) (load reset : Bool) : Word :=
  if reset then 0#16 else if load then input else current + 1#16

end Sys2Proof.Machine
end

