-- ==== Sys2Proof/Syntax.lean ====
section
/-! DEFINITION. The instruction set as syntax: the ALU's eighteen functions, the operand, destination and jump fields, and
one constructor of `Instr` for each row of spec/opcode_table.json. -/

namespace Sys2Proof

/-- The eighteen functions of the ALU, in the order of the source's table (R85, R177 to R194). -/
inductive AluFn
  | zero | one
  | passX | passY
  | negX | negY
  | notX | notY
  | incX | incY
  | decX | decY
  | add | subXY | subYX
  | and | or | xor
  deriving DecidableEq, Repr

/-- The `a` bit of a compute instruction: where the ALU's operand Y comes from (R88). -/
inductive YSource
  /-- a = 0: Y is the A register. -/
  | regA
  /-- a = 1: Y is MemoryInput, the data cell at the address in A. -/
  | mem
  deriving DecidableEq, Repr

/-- The `dest` field: three independent store-enable bits (R86). -/
structure Dest where
  /-- Bit 5: load the A register. -/
  toA : Bool
  /-- Bit 4: load the D register. -/
  toD : Bool
  /-- Bit 3: write the data cell at the address in A. -/
  toM : Bool
  deriving DecidableEq, Repr

/-- The `jump` field: one of eight conditions on the flags of the same cycle, in code order 0 to 7 (R87). -/
inductive Jump
  | never | gt | eq | ge | lt | ne | le | always
  deriving DecidableEq, Repr

/-- One constructor for each row of the opcode table. A compute instruction carries its `a` bit, its `dest` and its
`jump`; its spare bits are ignored by the decoder and are not part of it (R89, R92). A reserved row carries the whole
offending word, because that is what the report of its encoding error records (R321). -/
inductive Instr
  /-- `@value`, the addressing instruction (R270). -/
  | addressing (value : BitVec 15)
  /-- comp `0` (R272). -/
  | zero (y : YSource) (dst : Dest) (j : Jump)
  /-- comp `1` (R273). -/
  | one (y : YSource) (dst : Dest) (j : Jump)
  /-- comp `D` (R274). -/
  | passX (y : YSource) (dst : Dest) (j : Jump)
  /-- comp `A` or `M` (R275). -/
  | passY (y : YSource) (dst : Dest) (j : Jump)
  /-- comp `-D` (R276). -/
  | negX (y : YSource) (dst : Dest) (j : Jump)
  /-- comp `-A` or `-M` (R277). -/
  | negY (y : YSource) (dst : Dest) (j : Jump)
  /-- comp `!D` (R278). -/
  | notX (y : YSource) (dst : Dest) (j : Jump)
  /-- comp `!A` or `!M` (R279). -/
  | notY (y : YSource) (dst : Dest) (j : Jump)
  /-- comp `D+1` (R280). -/
  | incX (y : YSource) (dst : Dest) (j : Jump)
  /-- comp `A+1` or `M+1` (R281). -/
  | incY (y : YSource) (dst : Dest) (j : Jump)
  /-- comp `D-1` (R282). -/
  | decX (y : YSource) (dst : Dest) (j : Jump)
  /-- comp `A-1` or `M-1` (R283). -/
  | decY (y : YSource) (dst : Dest) (j : Jump)
  /-- comp `D+A` or `D+M` (R284). -/
  | add (y : YSource) (dst : Dest) (j : Jump)
  /-- comp `D-A` or `D-M` (R285). -/
  | subXY (y : YSource) (dst : Dest) (j : Jump)
  /-- comp `A-D` or `M-D` (R286). -/
  | subYX (y : YSource) (dst : Dest) (j : Jump)
  /-- comp `D&A` or `D&M` (R287). -/
  | and (y : YSource) (dst : Dest) (j : Jump)
  /-- comp `D|A` or `D|M` (R288). -/
  | or (y : YSource) (dst : Dest) (j : Jump)
  /-- comp `D^A` or `D^M` (R289). -/
  | xor (y : YSource) (dst : Dest) (j : Jump)
  /-- A compute word with control code 18 or 19 (R90). -/
  | reserved18to19 (word : Word)
  /-- A compute word with control code 20 to 23 (R90). -/
  | reserved20to23 (word : Word)
  /-- A compute word with control code 24 to 31 (R90). -/
  | reserved24to31 (word : Word)
  deriving DecidableEq, Repr

end Sys2Proof
end

