-- ==== Sys2Proof/Config.lean ====
section
/-! DEFINITION. What one platform fixes (R6, R30), as plain data that a run carries unchanged, and the values the spec leaves
free. The default ALU_CODE_MAP stands in Sys2Proof/Decode.lean with the decoder that reads it. -/

namespace Sys2Proof

/-- One row of ALU_CODE_MAP: a 5-bit control code and the function it selects (R85). -/
structure CodeRow where
  code : BitVec 5
  fn : AluFn
  deriving DecidableEq, Repr

/-- ALU_CODE_MAP, a partial map from control codes to ALU functions, as a table (R6, R85). A code that no row names has no
function (R90). -/
abbrev CodeMap := List CodeRow

/-- A table is a partial map when no code has two rows. -/
abbrev CodeMap.Functional (m : CodeMap) : Prop := (m.map CodeRow.code).Nodup

/-- The parameters of the machine that the source leaves open (R6). -/
structure Config where
  /-- ALU_CODE_MAP. -/
  codeMap : CodeMap
  /-- DMEM_WORDS: data addresses 0 .. dmemWords - 1 exist (R57). -/
  dmemWords : Nat
  /-- IMEM_WORDS: instruction addresses 0 .. imemWords - 1 exist (R57). -/
  imemWords : Nat
  /-- UNIFIED_MEMORY: whether instruction and data addresses name the same storage (R62). -/
  unifiedMemory : Bool
  deriving DecidableEq, Repr

/-- A configuration makes sense when its code map is a map, its memories lie within the 16-bit address space, and a unified
memory has one size. -/
abbrev Config.Wf (c : Config) : Prop :=
  c.codeMap.Functional ∧ c.dmemWords ≤ 65536 ∧ c.imemWords ≤ 65536 ∧
    (c.unifiedMemory = true → c.dmemWords = c.imemWords)

/-- FREE VALUE (R176, U2): the ALU's result for a control code without a function, by control code, X and Y. It has no body;
nothing the machine commits depends on it. -/
opaque Config.freeAluOut : BitVec 5 → Word → Word → Word

/-- FREE VALUE (R176, U2): the zero flag of the ALU for a control code without a function. -/
opaque Config.freeAluZr : BitVec 5 → Word → Word → Bool

/-- FREE VALUE (R176, U2): the negative flag of the ALU for a control code without a function. -/
opaque Config.freeAluNg : BitVec 5 → Word → Word → Bool

/-- FREE VALUE (R256, U3): what the MemoryOutput bus carries in an addressing cycle and in a rejected cycle, by the instruction
word, A, D and MemoryInput. MemoryWrite is 0 in those cycles, so no conforming memory reads it. -/
opaque Config.freeMemoryOutput : Word → Word → Word → Word → Word

end Sys2Proof
end

