-- ==== Sys2Proof/WellFormed.lean ====
section
/-! DEFINITION. Which instructions are well formed. Every operand of the addressing and compute rows has a type that holds
exactly the values its field can take; a reserved row carries a word, and that word must be one of the row. -/

namespace Sys2Proof

/-- The word is one of the row RESERVED_18_19: match 0x8480 under mask 0x8780 (opcode_table.json). -/
def inReserved18to19 (w : Word) : Bool := w &&& 0x8780#16 == 0x8480#16

/-- The word is one of the row RESERVED_20_23: match 0x8500 under mask 0x8700. -/
def inReserved20to23 (w : Word) : Bool := w &&& 0x8700#16 == 0x8500#16

/-- The word is one of the row RESERVED_24_31: match 0x8600 under mask 0x8600. -/
def inReserved24to31 (w : Word) : Bool := w &&& 0x8600#16 == 0x8600#16

/-- A reserved row's word lies in that row; every other instruction is well formed whatever its operands. -/
def Instr.wf : Instr → Bool
  | .addressing _ => true
  | .zero _ _ _ => true
  | .one _ _ _ => true
  | .passX _ _ _ => true
  | .passY _ _ _ => true
  | .negX _ _ _ => true
  | .negY _ _ _ => true
  | .notX _ _ _ => true
  | .notY _ _ _ => true
  | .incX _ _ _ => true
  | .incY _ _ _ => true
  | .decX _ _ _ => true
  | .decY _ _ _ => true
  | .add _ _ _ => true
  | .subXY _ _ _ => true
  | .subYX _ _ _ => true
  | .and _ _ _ => true
  | .or _ _ _ => true
  | .xor _ _ _ => true
  | .reserved18to19 w => inReserved18to19 w
  | .reserved20to23 w => inReserved20to23 w
  | .reserved24to31 w => inReserved24to31 w

end Sys2Proof
end

