-- ==== Sys2Proof/Decode.lean ====
section
/-! DEFINITION. The decoder (R81 to R92), total on all 65536 words under every ALU_CODE_MAP, the spec's default map (R85), and
the encoder (R94) written from the same tables. -/

namespace Sys2Proof

/-! ### The fields of the instruction word (R81, R83, R232) -/

/-- `type`, bit 15: 0 for an addressing instruction, 1 for a compute instruction. -/
def typeBit (I : Word) : Bool := I.getLsbD 15

/-- `spare`, bits 14:12 of a compute instruction: read by nothing (R89). -/
def spareField (I : Word) : BitVec 3 := I.extractLsb' 12 3

/-- `a`, bit 11 of a compute instruction. -/
def aBit (I : Word) : Bool := I.getLsbD 11

/-- `control`, bits 10:6 of a compute instruction; control bit 0 is instruction bit 6. -/
def controlField (I : Word) : BitVec 5 := I.extractLsb' 6 5

/-- `dest`, bits 5:3 of a compute instruction. -/
def destField (I : Word) : BitVec 3 := I.extractLsb' 3 3

/-- `jump`, bits 2:0 of a compute instruction. -/
def jumpField (I : Word) : BitVec 3 := I.extractLsb' 0 3

/-- `value`, bits 14:0 of an addressing instruction (R82). -/
def literalField (I : Word) : BitVec 15 := I.extractLsb' 0 15

/-! ### Field values as syntax -/

/-- R88: a = 1 selects memory. -/
def YSource.ofBit (a : Bool) : YSource := if a then .mem else .regA

/-- The `a` bit of a Y source. -/
def YSource.bit : YSource → Bool
  | .regA => false
  | .mem => true

/-- R86: of the three dest bits, bit 2 (instruction bit 5) enables A, bit 1 (bit 4) D and bit 0 (bit 3) memory. -/
def Dest.ofBits (b : BitVec 3) : Dest := ⟨b.getLsbD 2, b.getLsbD 1, b.getLsbD 0⟩

/-- The dest field of a destination. -/
def Dest.bits (dst : Dest) : BitVec 3 :=
  BitVec.ofBool dst.toA ++ BitVec.ofBool dst.toD ++ BitVec.ofBool dst.toM

/-- R87: the condition at position j of the list is the meaning of jump code j. -/
def Jump.ofCode (b : BitVec 3) : Jump :=
  match b.toNat with
  | 0 => .never
  | 1 => .gt
  | 2 => .eq
  | 3 => .ge
  | 4 => .lt
  | 5 => .ne
  | 6 => .le
  | _ => .always

/-- The jump field of a condition (R87). -/
def Jump.code : Jump → BitVec 3
  | .never => 0
  | .gt => 1
  | .eq => 2
  | .ge => 3
  | .lt => 4
  | .ne => 5
  | .le => 6
  | .always => 7

/-! ### The ALU code map (R85) -/

/-- The function of a control code: that of the first row with the code; none if no row has it. -/
def CodeMap.fnOf : CodeMap → BitVec 5 → Option AluFn
  | [], _ => none
  | r :: rest, c => if r.code = c then some r.fn else CodeMap.fnOf rest c

/-- A control code of a function: that of the first row with the function; none if no row has it. -/
def CodeMap.codeOf : CodeMap → AluFn → Option (BitVec 5)
  | [], _ => none
  | r :: rest, f => if r.fn = f then some r.code else CodeMap.codeOf rest f

/-- The spec's default ALU_CODE_MAP: codes 0 to 17 in the order of the source's table, 18 to 31 without a function (R85, D1;
DESIGN CHOICE of the spec, log entry 5). -/
def aluCodeMap : CodeMap :=
  [⟨0, .zero⟩, ⟨1, .one⟩, ⟨2, .passX⟩, ⟨3, .passY⟩, ⟨4, .negX⟩, ⟨5, .negY⟩] ++
  [⟨6, .notX⟩, ⟨7, .notY⟩, ⟨8, .incX⟩, ⟨9, .incY⟩, ⟨10, .decX⟩, ⟨11, .decY⟩] ++
  [⟨12, .add⟩, ⟨13, .subXY⟩, ⟨14, .subYX⟩, ⟨15, .and⟩, ⟨16, .or⟩, ⟨17, .xor⟩]

/-! ### Decoding -/

/-- The compute instruction of a function and its operand fields. -/
def Instr.compute (f : AluFn) (y : YSource) (dst : Dest) (j : Jump) : Instr :=
  match f with
  | .zero => .zero y dst j
  | .one => .one y dst j
  | .passX => .passX y dst j
  | .passY => .passY y dst j
  | .negX => .negX y dst j
  | .negY => .negY y dst j
  | .notX => .notX y dst j
  | .notY => .notY y dst j
  | .incX => .incX y dst j
  | .incY => .incY y dst j
  | .decX => .decX y dst j
  | .decY => .decY y dst j
  | .add => .add y dst j
  | .subXY => .subXY y dst j
  | .subYX => .subYX y dst j
  | .and => .and y dst j
  | .or => .or y dst j
  | .xor => .xor y dst j

/-- Why a word has no instruction. -/
inductive DecodeError
  /-- A compute word whose control code has no function in the map and no reserved row of the opcode table either. Under the
  default map this does not happen: the table's rows partition all words. The cycle is a rejected one all the same (R248). -/
  | controlWithoutFunction (word : Word)
  deriving DecidableEq, Repr

/-- A compute word whose control code has no function, by the reserved row it lies in (R90). -/
def decodeReserved (I : Word) : Except DecodeError Instr :=
  if inReserved18to19 I then .ok (.reserved18to19 I)
  else if inReserved20to23 I then .ok (.reserved20to23 I)
  else if inReserved24to31 I then .ok (.reserved24to31 I)
  else .error (.controlWithoutFunction I)

/-- The decoder of R92 under a given ALU_CODE_MAP. -/
def decodeWith (m : CodeMap) (I : Word) : Except DecodeError Instr :=
  if typeBit I then
    match m.fnOf (controlField I) with
    | some f =>
      .ok (Instr.compute f (YSource.ofBit (aBit I)) (Dest.ofBits (destField I)) (Jump.ofCode (jumpField I)))
    | none => decodeReserved I
  else .ok (.addressing (literalField I))

/-- The decoder under the default map. -/
def decode (I : Word) : Except DecodeError Instr := decodeWith aluCodeMap I

/-- The instruction the decoder reads from a word given as a number of `nbits` bits, bit 0 the least significant. Every
instruction is one 16-bit word (R80), so there is nothing to lay out. -/
def decodeTableWord (nbits w : Nat) : Option Instr :=
  match decode (BitVec.ofNat 16 (w % 2 ^ nbits)) with
  | .ok i => some i
  | .error _ => none

/-! ### Encoding (R94) -/

/-- The word of format C with the given fields: type 1, spare 000, then a, control, dest, jump (R83, R94). -/
def computeWord (a : Bool) (control : BitVec 5) (dest jump : BitVec 3) : Word :=
  1#1 ++ 0#3 ++ BitVec.ofBool a ++ control ++ dest ++ jump

/-- The word of format A with the given literal: type 0, then the literal (R82, R94). -/
def addressingWord (value : BitVec 15) : Word := 0#1 ++ value

/-- The word of a reserved row: the word it carries, if the map gives its code no function. -/
def encodeReserved (m : CodeMap) (w : Word) : Option Word :=
  match m.fnOf (controlField w) with
  | some _ => none
  | none => some w

/-- The word of a compute instruction, if the map gives its function a code. -/
def encodeCompute (m : CodeMap) (f : AluFn) (y : YSource) (dst : Dest) (j : Jump) : Option Word :=
  (m.codeOf f).map fun c => computeWord y.bit c dst.bits j.code

/-- The canonical word of an instruction under a given ALU_CODE_MAP (R94); none if the map gives a compute instruction's
function no code, or a reserved row's code a function. -/
def encodeWith (m : CodeMap) (i : Instr) : Option Word :=
  match i with
  | .addressing v => some (addressingWord v)
  | .zero y dst j => encodeCompute m .zero y dst j
  | .one y dst j => encodeCompute m .one y dst j
  | .passX y dst j => encodeCompute m .passX y dst j
  | .passY y dst j => encodeCompute m .passY y dst j
  | .negX y dst j => encodeCompute m .negX y dst j
  | .negY y dst j => encodeCompute m .negY y dst j
  | .notX y dst j => encodeCompute m .notX y dst j
  | .notY y dst j => encodeCompute m .notY y dst j
  | .incX y dst j => encodeCompute m .incX y dst j
  | .incY y dst j => encodeCompute m .incY y dst j
  | .decX y dst j => encodeCompute m .decX y dst j
  | .decY y dst j => encodeCompute m .decY y dst j
  | .add y dst j => encodeCompute m .add y dst j
  | .subXY y dst j => encodeCompute m .subXY y dst j
  | .subYX y dst j => encodeCompute m .subYX y dst j
  | .and y dst j => encodeCompute m .and y dst j
  | .or y dst j => encodeCompute m .or y dst j
  | .xor y dst j => encodeCompute m .xor y dst j
  | .reserved18to19 w => encodeReserved m w
  | .reserved20to23 w => encodeReserved m w
  | .reserved24to31 w => encodeReserved m w

/-- The canonical word of an instruction under the default map. -/
def encode (i : Instr) : Option Word := encodeWith aluCodeMap i

end Sys2Proof
end

