-- ==== Sys2Proof/Machine/State.lean ====
section
/-! DEFINITION. The state of the closed system (R20, R252): the CPU's A, D and PC, the two memories behind its buses, the levels the
environment drives on the Reset pin, the reports it has received, and the platform's parameters. Plain data throughout. -/

namespace Sys2Proof.Machine

/-- A memory of 16-bit cells (R54): pairs of an address and the word in that cell. -/
abbrev Memory := List (Nat × Word)

/-- The report of one rejected cycle (R321): the offending word and its address, the PC of that cycle. -/
structure EncodingError where
  word : Word
  pc : Word
  deriving DecidableEq, Repr

/-- Why the machine stops with a fault. -/
inductive Fault
  /-- Raised by a compute instruction that reads or writes the data cell at A when the platform has no such cell (A at or beyond
  DMEM_WORDS; R65, U11). Cannot happen with the default size. Safe: no next state is given. -/
  | absentDataCell (address : Word)
  /-- Raised by the fetch when PC is at or beyond IMEM_WORDS (R65). Cannot happen with the default size. Safe: no next state is
  given. -/
  | absentInstructionCell (address : Word)
  deriving DecidableEq, Repr

/-- Why the model gives a step no meaning. -/
inductive Refusal
  /-- Raised by `exec` for an instruction without a meaning: none is left. Safe. -/
  | notModelled (mnemonic : String)
  /-- Raised by the fetch when the loader has not filled the instruction cell at PC (R53, U10: refuse). Safe: no next state is
  given. -/
  | unloadedInstruction (address : Word)
  deriving DecidableEq, Repr

/-- Everything the spec gives the machine. -/
structure State where
  /-- Register A (R21). -/
  a : Word
  /-- Register D (R22). -/
  d : Word
  /-- The program counter PC (R23). -/
  pc : Word
  /-- Data memory: the cells that differ from what an unlisted cell holds (R51, R52). -/
  dmem : Memory
  /-- Instruction memory: the cells that the loader has filled (R53). -/
  imem : Memory
  /-- The levels of the Reset pin at the coming edges, the next edge first; 0 at every edge beyond the list (R350, D22). -/
  resetPins : List Bool
  /-- The reports received, the newest first (R322, R364). -/
  reports : List EncodingError
  /-- The platform's parameters, which no step changes (R6, R30). -/
  config : Config
  deriving DecidableEq, Repr

/-- The parameters at their defaults (R6). -/
def defaultConfig : Config :=
  { codeMap := aluCodeMap, dmemWords := 65536, imemWords := 65536, unifiedMemory := false }

/-- The machine right after a Reset edge: PC is 0 (R33, R350). The spec gives A, D and data memory no value: DESIGN CHOICE 0, log
entries 1 and 2. No program is loaded (log entry 14) and Reset is 0 at every coming edge (DESIGN CHOICE, log entry 3). -/
def State.reset : State :=
  { a := 0#16, d := 0#16, pc := 0#16, dmem := [], imem := [], resetPins := [], reports := [], config := defaultConfig }

end Sys2Proof.Machine
end

