-- ==== Sys2Proof/Machine/Ops.lean ====
section
/-! DEFINITION. The operations over memory, pins and registers that every meaning goes through: reading and writing cells, the
fetch, the Reset pin, the clock edge (R218), and the rejected cycle, which is how the one exception of this hardware is taken
(R322). There is no return from an exception (R328). -/

namespace Sys2Proof.Machine

/-! ### Memories as lists of cells in one canonical form -/

/-- The word listed at an address; none if the address is not listed. -/
def Memory.find : Memory → Nat → Option Word
  | [], _ => none
  | (k, w) :: rest, a => if k = a then some w else Memory.find rest a

/-- List a word at an address, in rising order of addresses. -/
def Memory.put : Memory → Nat → Word → Memory
  | [], a, v => [(a, v)]
  | (k, w) :: rest, a, v =>
    if a < k then (a, v) :: (k, w) :: rest
    else if a = k then (a, v) :: rest
    else (k, w) :: Memory.put rest a v

/-- List nothing at an address. -/
def Memory.remove : Memory → Nat → Memory
  | [], _ => []
  | (k, w) :: rest, a => if k = a then Memory.remove rest a else (k, w) :: Memory.remove rest a

/-- What a data cell that is not listed holds (DESIGN CHOICE 0, log entry 2). -/
def unlistedData : Word := 0#16

/-- The content of a data cell (R51). -/
def Memory.read (m : Memory) (a : Word) : Word := (m.find a.toNat).getD unlistedData

/-- Data memory with a word stored in a cell (R52); storing what an unlisted cell holds unlists the cell. -/
def Memory.write (m : Memory) (a v : Word) : Memory :=
  if v = unlistedData then m.remove a.toNat else m.put a.toNat v

/-- The canonical form of an instruction memory of a given size: addresses strictly rise and exist. -/
abbrev Memory.WfCode (size : Nat) (m : Memory) : Prop :=
  m.Pairwise (fun x y => x.1 < y.1) ∧ ∀ c ∈ m, c.1 < size

/-- The canonical form of a data memory of a given size: addresses strictly rise and exist, and no entry equals what an unlisted
cell holds. -/
abbrev Memory.Wf (size : Nat) (m : Memory) : Prop :=
  Memory.WfCode size m ∧ ∀ c ∈ m, c.2 ≠ unlistedData

/-! ### Memory as the machine reaches it -/

/-- Whether the platform has a data cell at an address (R57, R65). -/
def State.dataCellExists (s : State) (a : Word) : Bool := decide (a.toNat < s.config.dmemWords)

/-- MemRead (R51); an absent cell has no value (R65, U11). -/
def readCell (s : State) (a : Word) : Except Fault Word :=
  if s.dataCellExists a then .ok (s.dmem.read a) else .error (.absentDataCell a)

/-- MemWrite to an existing cell (R52). In a unified memory the instruction space shows the same array (R62, R252). -/
def storeCell (s : State) (a v : Word) : State :=
  { s with
    dmem := s.dmem.write a v
    imem := if s.config.unifiedMemory then s.imem.put a.toNat v else s.imem }

/-- What the instruction memory answers to a fetch (R53, R65). -/
inductive Fetched
  | word (I : Word)
  | unloaded
  | absent
  deriving DecidableEq, Repr

/-- IMemRead(PC) (R53). -/
def fetch (s : State) : Fetched :=
  if s.pc.toNat < s.config.imemWords then
    match s.imem.find s.pc.toNat with
    | some I => .word I
    | none => .unloaded
  else .absent

/-! ### The Reset pin and the clock edge -/

/-- The level of the Reset pin at the coming edge (R350, R354); 0 beyond the list (DESIGN CHOICE, log entry 3). -/
def State.resetPin (s : State) : Bool := s.resetPins.headD false

/-- What the settled network presents to the clocked components and to the memory at an edge. -/
structure EdgeInputs where
  aInput : Word
  aLoad : Bool
  dInput : Word
  dLoad : Bool
  pcLoad : Bool
  /-- MemoryWrite. -/
  write : Bool
  /-- MemoryOutput. -/
  store : Word
  deriving DecidableEq, Repr

/-- One clock edge (R218): A, D, PC and the memory commit together, each from the pre-edge state. The PC's input and the store's
address are the pre-edge A (R237, R246); the PC's reset is the Reset pin (R247). -/
def clockEdge (e : EdgeInputs) (s : State) : State :=
  let t := if e.write then storeCell s s.a e.store else s
  { t with
    a := registerNext s.a e.aInput e.aLoad
    d := registerNext s.d e.dInput e.dLoad
    pc := counterNext s.pc s.a e.pcLoad s.resetPin
    resetPins := s.resetPins.tail }

/-- A rejected cycle (R322, R326): A, D and memory hold, PC becomes 0 if Reset is 1 and holds otherwise, and the EncodingError is
reported and kept. Nothing is saved elsewhere and control goes nowhere (R327). -/
def rejectCycle (I : Word) (s : State) : State :=
  { s with
    pc := if s.resetPin then 0#16 else s.pc
    resetPins := s.resetPins.tail
    reports := ⟨I, s.pc⟩ :: s.reports }

end Sys2Proof.Machine
end

