-- ==== Sys2Proof/Machine/Addressing.lean ====
section
/-! DEFINITION. The addressing instruction `@value` (R270). -/

namespace Sys2Proof.Machine

/-- R270: A receives the instruction word, whose bit 15 is 0; D and memory hold; the PC never jumps. The ALU's outputs of the
cycle are ignored (R256); the value on D's disabled input and on MemoryOutput is one of them. -/
def execAddressing (value : BitVec 15) (s : State) : Host.Outcome State Fault Refusal :=
  .next (clockEdge
    { aInput := value.setWidth 16, aLoad := true, dInput := s.d, dLoad := false, pcLoad := false, write := false, store := 0#16 } s)

end Sys2Proof.Machine
end

