-- ==== Sys2Proof/Machine/Alu.lean ====
section
/-! DEFINITION. The ALU's result (R172, R175 to R194). All arithmetic is modulo 2^16. -/

namespace Sys2Proof.Machine

/-- The result of an ALU function on X and Y, one line per rule R177 to R194. -/
def aluOut (f : AluFn) (X Y : Word) : Word :=
  match f with
  | .zero => 0#16
  | .one => 1#16
  | .passX => X
  | .passY => Y
  | .negX => -X
  | .negY => -Y
  | .notX => ~~~X
  | .notY => ~~~Y
  | .incX => X + 1#16
  | .incY => Y + 1#16
  | .decX => X - 1#16
  | .decY => Y - 1#16
  | .add => X + Y
  | .subXY => X - Y
  | .subYX => Y - X
  | .and => X &&& Y
  | .or => X ||| Y
  | .xor => X ^^^ Y

/-- Whether a function reads Y; seven do not (R91). -/
def readsY (f : AluFn) : Bool :=
  match f with
  | .zero => false
  | .one => false
  | .passX => false
  | .passY => true
  | .negX => false
  | .negY => true
  | .notX => false
  | .notY => true
  | .incX => false
  | .incY => true
  | .decX => false
  | .decY => true
  | .add => true
  | .subXY => true
  | .subYX => true
  | .and => true
  | .or => true
  | .xor => true

end Sys2Proof.Machine
end

