-- ==== Sys2Proof/Machine/MuxTree.lean ====
section
/-! DEFINITION. The N-way mux tree (R160, R161): its structure as a complete binary tree of 2-way MUXes, and the integer readings
of a list of bits (R8, R120, R121). A list of bits has index 0, the least significant bit, first (R7). -/

namespace Sys2Proof.Machine

/-- The unsigned reading `uval` of a list of bits (R8, R120). -/
def bitsToNat : List Bool → Nat
  | [] => 0
  | b :: rest => b.toNat + 2 * bitsToNat rest

/-- The two's-complement reading `sval` of a list of bits (R8, R120): uval, less 2^N when the top bit is 1. -/
def bitsToInt (bits : List Bool) : Int :=
  (bitsToNat bits : Int) - if bits.getLast? = some true then (2 : Int) ^ bits.length else 0

/-- The N bits that `writeAsInteger` sets (R121): bit i is floor(v / 2^i) mod 2. -/
def bitsOfInt : Nat → Int → List Bool
  | 0, _ => []
  | n + 1, v => decide (v % 2 = 1) :: bitsOfInt n (v / 2)

/-- The mux tree `T(k, ctl, in)` of R161. The root is gated by the most significant control bit and picks between the trees of the
low and the high half of the data inputs. -/
def muxTree : Nat → List Bool → List Bool → Bool
  | 0, _, ins => ins.headD false
  | k + 1, ctl, ins =>
    muxGate (ctl.getD k false) (muxTree k ctl (ins.take (2 ^ k))) (muxTree k ctl (ins.drop (2 ^ k)))

end Sys2Proof.Machine
end

