-- ==== Sys2Proof/Machine/Flags.lean ====
section
/-! DEFINITION. The ALU's two flags (R173, R174) and the jump conditions on them (R87, R243, R244). The flags are combinational:
they are computed from the result of the same cycle and stored nowhere (R24). -/

namespace Sys2Proof.Machine

/-- The zero flag: 1 iff the 16-bit result is all zero bits (R173). -/
def zeroFlag (out : Word) : Bool := out == 0#16

/-- The negative flag: bit 15 of the 16-bit result (R174). -/
def negativeFlag (out : Word) : Bool := out.getLsbD 15

/-- The eight jump conditions on a flag pair, as R243 gives them. -/
def jumpCondition (j : Jump) (zr ng : Bool) : Bool :=
  match j with
  | .never => false
  | .gt => !zr && !ng
  | .eq => zr
  | .ge => zr || !ng
  | .lt => ng
  | .ne => !zr
  | .le => zr || ng
  | .always => true

/-- Whether a compute instruction with this result and jump field asks for a jump (R271). -/
def jumpTaken (j : Jump) (out : Word) : Bool := jumpCondition j (zeroFlag out) (negativeFlag out)

end Sys2Proof.Machine
end

