-- ==== Sys2Proof/Machine/Operands.lean ====
section
/-! DEFINITION. The operands of a compute instruction (R233, R234): X is D; Y is A or the data cell at A. Both are the pre-edge
values (R249). -/

namespace Sys2Proof.Machine

/-- Operand X (R233). -/
def operandX (s : State) : Word := s.d

/-- MemoryInput: the data cell at the pre-edge A (R51). -/
def memoryInput (s : State) : Word := s.dmem.read s.a

/-- Operand Y (R234). A function that does not read Y takes nothing from memory, so that both values of `a` execute identically
(R91): for such a function the cell need not exist (log entry 10). -/
def operandY (f : AluFn) (y : YSource) (s : State) : Except Fault Word :=
  match y with
  | .regA => .ok s.a
  | .mem => if readsY f then readCell s s.a else .ok (memoryInput s)

end Sys2Proof.Machine
end

