-- ==== Sys2Proof/Machine/Compute.lean ====
section
/-! DEFINITION. The eighteen compute instructions: the generic rule R271 once, and one definition per instruction over it. -/

namespace Sys2Proof.Machine

/-- What the network presents at the edge of a compute cycle with result `out` (R271, R236, R239 to R245): out goes to every enabled
destination (R290), and the PC loads when the jump condition holds on the flags of out. -/
def computeEdge (out : Word) (dst : Dest) (j : Jump) : EdgeInputs :=
  { aInput := out, aLoad := dst.toA, dInput := out, dLoad := dst.toD, pcLoad := jumpTaken j out, write := dst.toM, store := out }

/-- The compute instruction of R271: out = f(X, Y), then the edge. It stops only where the cell it must read or write is absent on a
platform with fewer cells (R65, U11). -/
def computeCycle (f : AluFn) (y : YSource) (dst : Dest) (j : Jump) (s : State) : Host.Outcome State Fault Refusal :=
  match operandY f y s with
  | .error r => .fault r
  | .ok Y =>
    if dst.toM && !s.dataCellExists s.a then .fault (.absentDataCell s.a)
    else .next (clockEdge (computeEdge (aluOut f (operandX s) Y) dst j) s)

/-- comp `0` (R272, R177). -/
def execZero (y : YSource) (dst : Dest) (j : Jump) (s : State) : Host.Outcome State Fault Refusal :=
  computeCycle .zero y dst j s

/-- comp `1` (R273, R178). -/
def execOne (y : YSource) (dst : Dest) (j : Jump) (s : State) : Host.Outcome State Fault Refusal :=
  computeCycle .one y dst j s

/-- comp `D` (R274, R179). -/
def execPassX (y : YSource) (dst : Dest) (j : Jump) (s : State) : Host.Outcome State Fault Refusal :=
  computeCycle .passX y dst j s

/-- comp `A` or `M` (R275, R180). -/
def execPassY (y : YSource) (dst : Dest) (j : Jump) (s : State) : Host.Outcome State Fault Refusal :=
  computeCycle .passY y dst j s

/-- comp `-D` (R276, R181). -/
def execNegX (y : YSource) (dst : Dest) (j : Jump) (s : State) : Host.Outcome State Fault Refusal :=
  computeCycle .negX y dst j s

/-- comp `-A` or `-M` (R277, R182). -/
def execNegY (y : YSource) (dst : Dest) (j : Jump) (s : State) : Host.Outcome State Fault Refusal :=
  computeCycle .negY y dst j s

/-- comp `!D` (R278, R183). -/
def execNotX (y : YSource) (dst : Dest) (j : Jump) (s : State) : Host.Outcome State Fault Refusal :=
  computeCycle .notX y dst j s

/-- comp `!A` or `!M` (R279, R184). -/
def execNotY (y : YSource) (dst : Dest) (j : Jump) (s : State) : Host.Outcome State Fault Refusal :=
  computeCycle .notY y dst j s

/-- comp `D+1` (R280, R185). -/
def execIncX (y : YSource) (dst : Dest) (j : Jump) (s : State) : Host.Outcome State Fault Refusal :=
  computeCycle .incX y dst j s

/-- comp `A+1` or `M+1` (R281, R186). -/
def execIncY (y : YSource) (dst : Dest) (j : Jump) (s : State) : Host.Outcome State Fault Refusal :=
  computeCycle .incY y dst j s

/-- comp `D-1` (R282, R187). -/
def execDecX (y : YSource) (dst : Dest) (j : Jump) (s : State) : Host.Outcome State Fault Refusal :=
  computeCycle .decX y dst j s

/-- comp `A-1` or `M-1` (R283, R188). -/
def execDecY (y : YSource) (dst : Dest) (j : Jump) (s : State) : Host.Outcome State Fault Refusal :=
  computeCycle .decY y dst j s

/-- comp `D+A` or `D+M` (R284, R189). -/
def execAdd (y : YSource) (dst : Dest) (j : Jump) (s : State) : Host.Outcome State Fault Refusal :=
  computeCycle .add y dst j s

/-- comp `D-A` or `D-M` (R285, R190). -/
def execSubXY (y : YSource) (dst : Dest) (j : Jump) (s : State) : Host.Outcome State Fault Refusal :=
  computeCycle .subXY y dst j s

/-- comp `A-D` or `M-D` (R286, R191). -/
def execSubYX (y : YSource) (dst : Dest) (j : Jump) (s : State) : Host.Outcome State Fault Refusal :=
  computeCycle .subYX y dst j s

/-- comp `D&A` or `D&M` (R287, R192). -/
def execAnd (y : YSource) (dst : Dest) (j : Jump) (s : State) : Host.Outcome State Fault Refusal :=
  computeCycle .and y dst j s

/-- comp `D|A` or `D|M` (R288, R193). -/
def execOr (y : YSource) (dst : Dest) (j : Jump) (s : State) : Host.Outcome State Fault Refusal :=
  computeCycle .or y dst j s

/-- comp `D^A` or `D^M` (R289, R194). -/
def execXor (y : YSource) (dst : Dest) (j : Jump) (s : State) : Host.Outcome State Fault Refusal :=
  computeCycle .xor y dst j s

end Sys2Proof.Machine
end

