-- ==== Sys2Proof/Machine/Reserved.lean ====
section
/-! DEFINITION. The three reserved rows: a compute word whose control code has no function is an encoding error (R90, R321). -/

namespace Sys2Proof.Machine

/-- RESERVED_18_19: the cycle is rejected (R90, R322). -/
def execReserved18to19 (word : Word) (s : State) : Host.Outcome State Fault Refusal :=
  .next (rejectCycle word s)

/-- RESERVED_20_23: the cycle is rejected (R90, R322). -/
def execReserved20to23 (word : Word) (s : State) : Host.Outcome State Fault Refusal :=
  .next (rejectCycle word s)

/-- RESERVED_24_31: the cycle is rejected (R90, R322). -/
def execReserved24to31 (word : Word) (s : State) : Host.Outcome State Fault Refusal :=
  .next (rejectCycle word s)

end Sys2Proof.Machine
end

