-- ==== Sys2Proof/Machine/Dispatch.lean ====
section
/-! DEFINITION. One arm per instruction, each one direct call of its meaning. -/

namespace Sys2Proof.Machine

def exec (i : Instr) (s : State) : Host.Outcome State Fault Refusal :=
  match i with
  | .addressing value => Sys2Proof.Machine.execAddressing value s
  | .zero y dst j => Sys2Proof.Machine.execZero y dst j s
  | .one y dst j => Sys2Proof.Machine.execOne y dst j s
  | .passX y dst j => Sys2Proof.Machine.execPassX y dst j s
  | .passY y dst j => Sys2Proof.Machine.execPassY y dst j s
  | .negX y dst j => Sys2Proof.Machine.execNegX y dst j s
  | .negY y dst j => Sys2Proof.Machine.execNegY y dst j s
  | .notX y dst j => Sys2Proof.Machine.execNotX y dst j s
  | .notY y dst j => Sys2Proof.Machine.execNotY y dst j s
  | .incX y dst j => Sys2Proof.Machine.execIncX y dst j s
  | .incY y dst j => Sys2Proof.Machine.execIncY y dst j s
  | .decX y dst j => Sys2Proof.Machine.execDecX y dst j s
  | .decY y dst j => Sys2Proof.Machine.execDecY y dst j s
  | .add y dst j => Sys2Proof.Machine.execAdd y dst j s
  | .subXY y dst j => Sys2Proof.Machine.execSubXY y dst j s
  | .subYX y dst j => Sys2Proof.Machine.execSubYX y dst j s
  | .and y dst j => Sys2Proof.Machine.execAnd y dst j s
  | .or y dst j => Sys2Proof.Machine.execOr y dst j s
  | .xor y dst j => Sys2Proof.Machine.execXor y dst j s
  | .reserved18to19 word => Sys2Proof.Machine.execReserved18to19 word s
  | .reserved20to23 word => Sys2Proof.Machine.execReserved20to23 word s
  | .reserved24to31 word => Sys2Proof.Machine.execReserved24to31 word s

end Sys2Proof.Machine
end

