-- ==== Sys2Proof/Machine/Loader.lean ====
section
/-! DEFINITION. What the program loader hands the machine before the first edge (R53, R353): words at instruction addresses, and the
machine-code text they come from (R97). The loader is outside the hardware (R3); this is the contract the CPU needs from it. -/

namespace Sys2Proof.Machine

/-- An instruction word placed in an instruction cell. In a unified memory it is the one array's cell (R62, R252). -/
def loadWord (s : State) (a I : Word) : State :=
  { s with
    imem := s.imem.put a.toNat I
    dmem := if s.config.unifiedMemory then s.dmem.write a I else s.dmem }

/-- Words placed at rising instruction addresses from `a` on, one word per address (R53); none if an address does not exist. -/
def loadFrom : State → Nat → List Word → Option State
  | s, _, [] => some s
  | s, a, I :: rest =>
    if a < s.config.imemWords then loadFrom (loadWord s (BitVec.ofNat 16 a) I) (a + 1) rest else none

/-- A program loaded from address 0 upward (R53, R353). -/
def loadProgram (s : State) (program : List Word) : Option State := loadFrom s 0 program

/-- One character of a machine-code line (R97); any character but '0' and '1' is refused (R93, R324). -/
def lineBit (c : Char) : Option Bool :=
  if c = '0' then some false else if c = '1' then some true else none

/-- The word that characters spell, the most significant first, after the bits already read. -/
def lineFrom : List Char → Word → Option Word
  | [], acc => some acc
  | c :: rest, acc =>
    match lineBit c with
    | some b => lineFrom rest (acc <<< 1 ||| (BitVec.ofBool b).setWidth 16)
    | none => none

/-- The word of one line of machine-code text (R97): exactly 16 characters '0' or '1', the leftmost bit 15. -/
def parseLine (line : List Char) : Option Word :=
  if line.length = 16 then lineFrom line 0#16 else none

/-- The words of a machine-code text, one line each; none if any line is malformed (R93: nothing is loaded from such a text). -/
def parseLines : List (List Char) → Option (List Word)
  | [] => some []
  | line :: rest =>
    match parseLine line, parseLines rest with
    | some I, some program => some (I :: program)
    | _, _ => none

end Sys2Proof.Machine
end

