-- ==== Sys2Proof/Machine/Step.lean ====
section
/-! DEFINITION. One step is one cycle (R231, R252): fetch, decode, execute. -/

namespace Sys2Proof.Machine

/-- One cycle of the closed system (R252). A word that the decoder gives no instruction is rejected (R248); a cell the loader did
not fill is refused (R53). -/
def step (s : State) : Host.Outcome State Fault Refusal :=
  match fetch s with
  | .absent => .fault (.absentInstructionCell s.pc)
  | .unloaded => .refused (.unloadedInstruction s.pc)
  | .word I =>
    match decodeWith s.config.codeMap I with
    | .ok i => exec i s
    | .error _ => .next (rejectCycle I s)

/-- The state with an instruction word loaded in the instruction cell at PC. -/
def State.withFetchWord (s : State) (nbits w : Nat) : State :=
  loadWord s s.pc (BitVec.ofNat 16 (w % 2 ^ nbits))

end Sys2Proof.Machine
end

