-- ==== Sys2Proof/Machine/Cpu.lean ====
section
/-! DEFINITION. The CPU at its boundary (R31): the step function of R250 over (A, D, PC) and the three input pins, and the same cycle
as the decode network of R232 to R248 in gates, a mux tree, two Registers and a Counter. Machine/Step.lean does not use this file;
the two are held against each other by obligations. -/

namespace Sys2Proof.Machine

/-- The CPU's whole architectural state (R20). -/
structure CpuRegs where
  a : Word
  d : Word
  pc : Word
  deriving DecidableEq, Repr

/-- The CPU's input signals (R31). -/
structure CpuPins where
  instruction : Word
  memoryInput : Word
  reset : Bool
  deriving DecidableEq, Repr

/-- The CPU's output signals (R31), as settled in the cycle. -/
structure CpuOutputs where
  memoryOutput : Word
  memoryAddress : Word
  memoryWrite : Bool
  instructionAddress : Word
  deriving DecidableEq, Repr

/-- What one cycle of the CPU gives: the registers after the edge, the outputs of the settle phase, and the report (R250). -/
structure CpuCycle where
  next : CpuRegs
  outputs : CpuOutputs
  report : Option EncodingError
  deriving DecidableEq, Repr

/-! ### The step function of R250 -/

/-- The eight conditions in index order on a flag pair (R243, R250). -/
def conditions (zr ng : Bool) : List Bool := [false, !zr && !ng, zr, zr || !ng, ng, !zr, zr || ng, true]

/-- A rejected cycle (R248, R250): everything holds but the PC under Reset; MemoryOutput is unspecified. -/
def cpuRejected (r : CpuRegs) (p : CpuPins) : CpuCycle :=
  { next := { a := r.a, d := r.d, pc := if p.reset then 0#16 else r.pc }
    outputs :=
      { memoryOutput := Config.freeMemoryOutput p.instruction r.a r.d p.memoryInput
        memoryAddress := r.a, memoryWrite := false, instructionAddress := r.pc }
    report := some ⟨p.instruction, r.pc⟩ }

/-- An addressing cycle (R250, R256). -/
def cpuAddressing (r : CpuRegs) (p : CpuPins) : CpuCycle :=
  { next := { a := p.instruction, d := r.d, pc := if p.reset then 0#16 else r.pc + 1#16 }
    outputs :=
      { memoryOutput := Config.freeMemoryOutput p.instruction r.a r.d p.memoryInput
        memoryAddress := r.a, memoryWrite := false, instructionAddress := r.pc }
    report := none }

/-- A compute cycle with function f (R250). -/
def cpuCompute (f : AluFn) (r : CpuRegs) (p : CpuPins) : CpuCycle :=
  let I := p.instruction
  let out := aluOut f r.d (if I.getLsbD 11 then p.memoryInput else r.a)
  let cond := (conditions (out == 0#16) (out.getLsbD 15)).getD (jumpField I).toNat false
  { next :=
      { a := if I.getLsbD 5 then out else r.a
        d := if I.getLsbD 4 then out else r.d
        pc := if p.reset then 0#16 else if cond then r.a else r.pc + 1#16 }
    outputs :=
      { memoryOutput := out, memoryAddress := r.a, memoryWrite := I.getLsbD 3, instructionAddress := r.pc }
    report := none }

/-- The step function of the CPU (R250). -/
def cpuStep (m : CodeMap) (r : CpuRegs) (p : CpuPins) : CpuCycle :=
  if p.instruction.getLsbD 15 then
    match m.fnOf (controlField p.instruction) with
    | some f => cpuCompute f r p
    | none => cpuRejected r p
  else cpuAddressing r p

/-- The CPU's registers in a state of the closed system. -/
def State.cpuRegs (s : State) : CpuRegs := { a := s.a, d := s.d, pc := s.pc }

/-- The pins of the coming cycle, given the word that the instruction memory drives (R51, R53). -/
def State.cpuPins (s : State) (I : Word) : CpuPins :=
  { instruction := I, memoryInput := s.dmem.read s.a, reset := s.resetPin }

/-- The state of the closed system after a cycle of the CPU (R252): the registers latch, the memory honours MemoryWrite with the
settled address and data, and the report is kept. -/
def State.afterCpu (s : State) (c : CpuCycle) : State :=
  let t := if c.outputs.memoryWrite then storeCell s c.outputs.memoryAddress c.outputs.memoryOutput else s
  { t with
    a := c.next.a
    d := c.next.d
    pc := c.next.pc
    resetPins := s.resetPins.tail
    reports := match c.report with
      | some r => r :: s.reports
      | none => s.reports }

/-! ### The ALU as a block with a control input (R170, R175, R176) -/

/-- The ALU's three outputs (R170). -/
structure AluOutputs where
  out : Word
  zr : Bool
  ng : Bool
  deriving DecidableEq, Repr

/-- The ALU block: the function of the control code with its flags (R175); free values for a code without a function (R176). -/
def alu (m : CodeMap) (control : BitVec 5) (X Y : Word) : AluOutputs :=
  match m.fnOf control with
  | some f => { out := aluOut f X Y, zr := zeroFlag (aluOut f X Y), ng := negativeFlag (aluOut f X Y) }
  | none =>
    { out := Config.freeAluOut control X Y, zr := Config.freeAluZr control X Y, ng := Config.freeAluNg control X Y }

/-! ### The decode network (R232 to R248, R253) -/

/-- The rejection of R248: type AND the control code has no function. -/
def rejectedSignal (m : CodeMap) (I : Word) : Bool := andGate (typeBit I) (m.fnOf (controlField I)).isNone

/-- The settled signals of the reference wiring, named as in R253, with the type bit of R239, R241, R242 and R245 gated by NOT rejected
(R248). -/
structure Wires where
  rejected : Bool
  /-- `type AND NOT rejected`. -/
  enabled : Bool
  /-- g2: operand Y (R234). -/
  y : Word
  /-- u1: the ALU's outputs (R235). -/
  alu : AluOutputs
  /-- g3 (R240). -/
  aInput : Word
  /-- g6 (R241), held off in a rejected cycle (R248). -/
  aLoad : Bool
  /-- g7 (R242). -/
  dLoad : Bool
  /-- g8 (R239). -/
  memoryWrite : Bool
  /-- t1: the selected jump condition (R244). -/
  cond : Bool
  /-- g14 (R245). -/
  pcLoad : Bool
  deriving DecidableEq, Repr

/-- The eight data inputs of the jump mux tree: constants 0 and 1 and the gates g9 to g13 (R243, R253). -/
def conditionWires (zr ng : Bool) : List Bool :=
  let nZr := notGate zr
  let nNg := notGate ng
  [false, andGate nZr nNg, zr, orGate zr nNg, ng, nZr, orGate zr ng, true]

/-- The settled network (R249): each signal by an expression over the pins and the register outputs (R124). -/
def settleWires (m : CodeMap) (r : CpuRegs) (p : CpuPins) : Wires :=
  let I := p.instruction
  let type := typeBit I
  let rejected := rejectedSignal m I
  let enabled := andGate type (notGate rejected)
  let ySel := andGate type (aBit I)
  let y := busMux ySel r.a p.memoryInput
  let u1 := alu m (controlField I) r.d y
  let cond := muxTree 3 [I.getLsbD 0, I.getLsbD 1, I.getLsbD 2] (conditionWires u1.zr u1.ng)
  { rejected := rejected
    enabled := enabled
    y := y
    alu := u1
    aInput := busMux type I u1.out
    aLoad := orGate (notGate type) (andGate enabled (I.getLsbD 5))
    dLoad := andGate enabled (I.getLsbD 4)
    memoryWrite := andGate enabled (I.getLsbD 3)
    cond := cond
    pcLoad := andGate enabled cond }

/-- One cycle of the wired CPU: the network settles, then the two Registers and the Counter commit together (R218, R249). In a
rejected cycle the PC does not step (R248, R322). -/
def wiredCycle (m : CodeMap) (r : CpuRegs) (p : CpuPins) : CpuCycle :=
  let w := settleWires m r p
  { next :=
      { a := registerNext r.a w.aInput w.aLoad
        d := registerNext r.d w.alu.out w.dLoad
        pc := busMux (andGate w.rejected (notGate p.reset)) (counterNext r.pc r.a w.pcLoad p.reset) r.pc }
    outputs :=
      { memoryOutput := w.alu.out, memoryAddress := r.a, memoryWrite := w.memoryWrite, instructionAddress := r.pc }
    report := if w.rejected then some ⟨p.instruction, r.pc⟩ else none }

/-! ### The diagnostic snapshot (R255) -/

/-- Register values and decoded instruction fields, read only (R255, R232). -/
structure Snapshot where
  regs : CpuRegs
  type : Bool
  a : Bool
  control : BitVec 5
  dest : BitVec 3
  jump : BitVec 3
  deriving DecidableEq, Repr

/-- The snapshot of the CPU with a word on its Instruction bus. -/
def snapshot (r : CpuRegs) (I : Word) : Snapshot :=
  { regs := r, type := typeBit I, a := aBit I, control := controlField I, dest := destField I, jump := jumpField I }

end Sys2Proof.Machine
end

