-- ==== Sys2Proof/Machine/Circuit.lean ====
section
/-! DEFINITION. Circuits as a builder sees them: Signals, Buses, connect, setValue and the integer readings (R110 to R126), gates and
mux trees as components (R144 to R147, R163), ALUs, Registers and Counters with their clock edge (R210 to R223), and the
configuration errors of construction (R323). A circuit has two phases (R122): a `Circuit` is the wiring, and only it can be built
and connected; a `Running` is a finished wiring with the values of its pins and clocked components, and only it can be set, read and
clocked. The running CPU of Machine/Step.lean does not use this file. -/

namespace Sys2Proof.Machine

/-- A Signal, by its position in the circuit's list of Signals. -/
abbrev SignalId := Nat

/-- A Bus: Signals in order, index 0 (the least significant) first (R117, R118). -/
abbrev Bus := List SignalId

/-- What drives a Signal (R110, R111): nothing, so that it is an input pin, or exactly one source. -/
inductive Driver
  /-- An input pin (R116). -/
  | pin
  /-- `connect`: the value of another Signal at every read (R112). -/
  | wire (source : SignalId)
  /-- The output of a NOT gate. -/
  | notOf (x : SignalId)
  /-- The output of an AND gate. -/
  | andOf (x y : SignalId)
  /-- The output of an OR gate. -/
  | orOf (x y : SignalId)
  /-- The output of a 2-way MUX. -/
  | muxOf (control input1 input2 : SignalId)
  /-- Bit i of the output of a Register or Counter. -/
  | lane (part i : Nat)
  /-- Bit i of the result of an ALU. -/
  | aluOut (part i : Nat)
  /-- The zero flag of an ALU. -/
  | aluZr (part : Nat)
  /-- The negative flag of an ALU. -/
  | aluNg (part : Nat)
  deriving DecidableEq, Repr

/-- A clocked component: its contents before the first edge, which may be any word (R220), and the Signals it reads at an edge
(R210, R214). -/
inductive Clocked
  | register (initial : Word) (input : Bus) (load : SignalId)
  | counter (initial : Word) (input : Bus) (load reset : SignalId)
  deriving DecidableEq, Repr

/-- An ALU's inputs (R170). -/
structure AluPart where
  x : Bus
  y : Bus
  control : Bus
  deriving DecidableEq, Repr

/-- A circuit under construction, or the wiring of a finished one: its Signals, its clocked components and its ALUs. It holds no value
of a pin and no current contents. -/
structure Circuit where
  signals : List Driver
  clocked : List Clocked
  alus : List AluPart
  deriving DecidableEq, Repr

/-- A circuit after its construction (R122): the wiring, which nothing below changes, and all that does change, the Signal values and
the contents. -/
structure Running where
  wiring : Circuit
  /-- The value last set on each pin, in rising order of Signals; a pin that is not listed was never set (R113, R116). -/
  pins : List (SignalId × Bool)
  /-- `current` of every clocked component, in the order of the wiring (R210, R214). -/
  contents : List Word
  deriving DecidableEq, Repr

/-- The configuration errors (R323): each is fatal at construction, so that no circuit results. -/
inductive ConfigurationError
  /-- Buses of different widths wired together (R119, R147, R223). -/
  | widthMismatch
  /-- setValue or writeAsInteger on a Signal that has a source (R113, R121). -/
  | writeToDrivenSignal
  /-- A mux tree whose number of data inputs is not 2^k (R163). -/
  | muxTreeInputCount
  /-- connect on a Signal that already has a source (R111). -/
  | alreadyConnected
  /-- A cycle that passes through no Register or Counter (R123). -/
  | combinationalCycle
  /-- A Bus index, or a Signal, that does not exist (R118). -/
  | indexOutOfRange
  deriving DecidableEq, Repr

/-! ### Settling (R124) and reading (R114, R120) -/

/-- The values of Signals, if all of them have one. -/
def allDriven : List (Option Bool) → Option (List Bool)
  | [] => some []
  | none :: _ => none
  | some b :: rest => (allDriven rest).map (b :: ·)

/-- The value last set on a pin; none if it was never set (R116). -/
def pinValue : List (SignalId × Bool) → SignalId → Option Bool
  | [], _ => none
  | (k, v) :: rest, s => if k = s then some v else pinValue rest s

/-- The settled value of a Signal, evaluated through at most `fuel` Signals in a row; none if a pin in its cone was never set. -/
def settle (m : CodeMap) (r : Running) : Nat → SignalId → Option Bool
  | 0, _ => none
  | fuel + 1, s =>
    let aluAt (part : Nat) : Option AluOutputs := do
      let u ← r.wiring.alus[part]?
      let x ← allDriven (u.x.map fun t => settle m r fuel t)
      let y ← allDriven (u.y.map fun t => settle m r fuel t)
      let control ← allDriven (u.control.map fun t => settle m r fuel t)
      pure (alu m (BitVec.ofNat 5 (bitsToNat control)) (BitVec.ofNat 16 (bitsToNat x)) (BitVec.ofNat 16 (bitsToNat y)))
    match r.wiring.signals[s]? with
    | none => none
    | some .pin => pinValue r.pins s
    | some (.wire t) => settle m r fuel t
    | some (.notOf x) => (settle m r fuel x).map notGate
    | some (.andOf x y) => do pure (andGate (← settle m r fuel x) (← settle m r fuel y))
    | some (.orOf x y) => do pure (orGate (← settle m r fuel x) (← settle m r fuel y))
    | some (.muxOf ctl x y) => do pure (muxGate (← settle m r fuel ctl) (← settle m r fuel x) (← settle m r fuel y))
    | some (.lane part i) => (r.contents[part]?).map fun current => current.getLsbD i
    | some (.aluOut part i) => (aluAt part).map fun o => o.out.getLsbD i
    | some (.aluZr part) => (aluAt part).map AluOutputs.zr
    | some (.aluNg part) => (aluAt part).map AluOutputs.ng

/-- The settled value of a Signal (R114). In a circuit without combinational cycles no row of dependent Signals is longer than the
number of Signals. -/
def Running.value (m : CodeMap) (r : Running) (s : SignalId) : Option Bool := settle m r r.wiring.signals.length s

/-- The settled bits of a Bus, index 0 first. -/
def Running.busBits (m : CodeMap) (r : Running) (b : Bus) : Option (List Bool) := allDriven (b.map (r.value m))

/-- `readAsInteger`, unsigned reading (R120). -/
def Running.readUnsigned (m : CodeMap) (r : Running) (b : Bus) : Option Nat := (r.busBits m b).map bitsToNat

/-- `readAsInteger`, two's-complement reading (R120). -/
def Running.readSigned (m : CodeMap) (r : Running) (b : Bus) : Option Int := (r.busBits m b).map bitsToInt

/-! ### Construction: connect (R112, R119, R122) -/

/-- The Signals that a driver reads in the same cycle; a Register's or Counter's output reads none (R123). -/
def Circuit.inputsOf (c : Circuit) (dr : Driver) : List SignalId :=
  let aluInputs (part : Nat) : List SignalId :=
    match c.alus[part]? with
    | some u => u.x ++ u.y ++ u.control
    | none => []
  match dr with
  | .pin => []
  | .wire t => [t]
  | .notOf x => [x]
  | .andOf x y => [x, y]
  | .orOf x y => [x, y]
  | .muxOf ctl x y => [ctl, x, y]
  | .lane _ _ => []
  | .aluOut part _ => aluInputs part
  | .aluZr part => aluInputs part
  | .aluNg part => aluInputs part

/-- The Signals, from number `n` on, whose drivers read Signal `s` in the same cycle. -/
def Circuit.readersFrom (c : Circuit) (s : SignalId) : List Driver → Nat → List SignalId
  | [], _ => []
  | dr :: rest, n =>
    if (c.inputsOf dr).contains s then n :: Circuit.readersFrom c s rest (n + 1) else Circuit.readersFrom c s rest (n + 1)

/-- Whether a change of Signal `s` can reach Signal `t` in the same cycle: `t` is `s`, or reads it directly or through at most `fuel`
Signals in a row. -/
def Circuit.reaches (c : Circuit) : Nat → SignalId → SignalId → Bool
  | 0, s, t => s == t
  | fuel + 1, s, t => s == t || (c.readersFrom s c.signals 0).any fun u => Circuit.reaches c fuel u t

/-- `s.connect(t)` (R112): s becomes a wire from t. -/
def Circuit.connect (c : Circuit) (s t : SignalId) : Except ConfigurationError Circuit :=
  if t < c.signals.length then
    match c.signals[s]? with
    | none => .error .indexOutOfRange
    | some .pin =>
      if c.reaches c.signals.length s t then .error .combinationalCycle
      else .ok { c with signals := c.signals.set s (.wire t) }
    | some _ => .error .alreadyConnected
  else .error .indexOutOfRange

/-- Corresponding lanes connected, one after the other. -/
def connectLanes : Circuit → Bus → Bus → Except ConfigurationError Circuit
  | c, [], [] => .ok c
  | c, s :: bs, t :: bt =>
    match c.connect s t with
    | .ok c' => connectLanes c' bs bt
    | .error e => .error e
  | _, _, _ => .error .widthMismatch

/-- `connect` on a Bus (R119): the widths must agree, and then index i is connected to index i. -/
def Circuit.connectBus (c : Circuit) (b source : Bus) : Except ConfigurationError Circuit :=
  if b.length = source.length then connectLanes c b source else .error .widthMismatch

/-- `bus[i]` (R118). -/
def busIndex (b : Bus) (i : Nat) : Except ConfigurationError SignalId :=
  match b[i]? with
  | some s => .ok s
  | none => .error .indexOutOfRange

/-- The sub-range `bus[hi:lo]` as a Bus: index j of it is index lo + j of the parent (R118). -/
def busRange (b : Bus) (hi lo : Nat) : Except ConfigurationError Bus :=
  if lo ≤ hi ∧ hi < b.length then .ok ((b.drop lo).take (hi - lo + 1)) else .error .indexOutOfRange

/-! ### Building -/

/-- The circuit with nothing in it. -/
def Circuit.empty : Circuit := { signals := [], clocked := [], alus := [] }

/-- A new Signal with its driver. -/
def Circuit.addSignal (c : Circuit) (dr : Driver) : Circuit × SignalId :=
  ({ c with signals := c.signals ++ [dr] }, c.signals.length)

/-- New Signals, one for each driver, as a Bus. -/
def Circuit.addSignals (c : Circuit) (drs : List Driver) : Circuit × Bus :=
  ({ c with signals := c.signals ++ drs }, (List.range drs.length).map (c.signals.length + ·))

/-- A new Bus of input pins that were never set (R116, R117). -/
def Circuit.addPins (c : Circuit) (n : Nat) : Circuit × Bus := c.addSignals (List.replicate n .pin)

/-- A new gate output; the gate's inputs must exist. -/
def Circuit.addGate (c : Circuit) (inputs : List SignalId) (dr : Driver) : Except ConfigurationError (Circuit × SignalId) :=
  if inputs.all fun s => decide (s < c.signals.length) then .ok (c.addSignal dr) else .error .indexOutOfRange

/-- A NOT gate (R140). -/
def Circuit.addNot (c : Circuit) (x : SignalId) : Except ConfigurationError (Circuit × SignalId) := c.addGate [x] (.notOf x)

/-- An AND gate (R141). -/
def Circuit.addAnd (c : Circuit) (x y : SignalId) : Except ConfigurationError (Circuit × SignalId) :=
  c.addGate [x, y] (.andOf x y)

/-- An OR gate (R142). -/
def Circuit.addOr (c : Circuit) (x y : SignalId) : Except ConfigurationError (Circuit × SignalId) :=
  c.addGate [x, y] (.orOf x y)

/-- A 2-way MUX (R143). -/
def Circuit.addMux (c : Circuit) (control input1 input2 : SignalId) : Except ConfigurationError (Circuit × SignalId) :=
  c.addGate [control, input1, input2] (.muxOf control input1 input2)

/-- A bus-wide NOT (R145). -/
def addNotLanes : Circuit → Bus → Except ConfigurationError (Circuit × Bus)
  | c, [] => .ok (c, [])
  | c, x :: xs => do
    let (c, o) ← c.addNot x
    let (c, os) ← addNotLanes c xs
    pure (c, o :: os)

/-- A gate of two inputs for every pair of lanes. -/
def addLanes (add : Circuit → SignalId → SignalId → Except ConfigurationError (Circuit × SignalId)) :
    Circuit → Bus → Bus → Except ConfigurationError (Circuit × Bus)
  | c, x :: xs, y :: ys => do
    let (c, o) ← add c x y
    let (c, os) ← addLanes add c xs ys
    pure (c, o :: os)
  | c, _, _ => .ok (c, [])

/-- A bus-wide gate of two inputs, lane by lane; the widths must agree (R145, R147). -/
def addBusGate (add : Circuit → SignalId → SignalId → Except ConfigurationError (Circuit × SignalId)) (c : Circuit) (x y : Bus) :
    Except ConfigurationError (Circuit × Bus) :=
  if x.length = y.length then addLanes add c x y else .error .widthMismatch

/-- A bus-wide AND (R145). -/
def Circuit.addBusAnd (c : Circuit) (x y : Bus) : Except ConfigurationError (Circuit × Bus) := addBusGate Circuit.addAnd c x y

/-- A bus-wide OR (R145). -/
def Circuit.addBusOr (c : Circuit) (x y : Bus) : Except ConfigurationError (Circuit × Bus) := addBusGate Circuit.addOr c x y

/-- A bus-wide MUX (R146): the control bit is shared by all lanes. -/
def Circuit.addBusMux (c : Circuit) (control : SignalId) (input1 input2 : Bus) :
    Except ConfigurationError (Circuit × Bus) :=
  addBusGate (fun c x y => c.addMux control x y) c input1 input2

/-- The tree of R161 over 2^k data inputs. A leaf is the data input itself: only MUXes add Signals here (k = 0 as a whole tree:
`Circuit.addMuxTree`, log entry 20). -/
def addTree : Nat → Circuit → Bus → Bus → Except ConfigurationError (Circuit × SignalId)
  | 0, c, _, ins =>
    match ins with
    | x :: _ => .ok (c, x)
    | [] => .error .muxTreeInputCount
  | k + 1, c, ctl, ins => do
    let (c, low) ← addTree k c ctl (ins.take (2 ^ k))
    let (c, high) ← addTree k c ctl (ins.drop (2 ^ k))
    let root ← busIndex ctl k
    c.addMux root low high

/-- An N-way mux tree (R160, R163). R160 says of k = 0 only that the single input is wired to the output: the output is here a Signal
of its own, connected to the input, so that it has a source and the input must exist (DESIGN CHOICE, log entry 20). -/
def Circuit.addMuxTree (c : Circuit) (ctl ins : Bus) : Except ConfigurationError (Circuit × SignalId) :=
  if ins.length = 2 ^ ctl.length then
    match ctl, ins with
    | [], [x] => c.addGate [x] (.wire x)
    | _, _ => addTree ctl.length c ctl ins
  else .error .muxTreeInputCount

/-- A Register with contents before the first edge (R210, R220): its input and load are new pins, to be connected. -/
def Circuit.addRegister (c : Circuit) (initial : Word) : Circuit × Bus × SignalId × Bus :=
  let (c, input) := c.addPins 16
  let (c, load) := c.addSignal .pin
  let part := c.clocked.length
  let (c, output) := c.addSignals ((List.range 16).map (Driver.lane part))
  ({ c with clocked := c.clocked ++ [.register initial input load] }, input, load, output)

/-- A Counter with contents before the first edge (R214, R220): its input, load and reset are new pins, to be connected. -/
def Circuit.addCounter (c : Circuit) (initial : Word) : Circuit × Bus × SignalId × SignalId × Bus :=
  let (c, input) := c.addPins 16
  let (c, load) := c.addSignal .pin
  let (c, reset) := c.addSignal .pin
  let part := c.clocked.length
  let (c, output) := c.addSignals ((List.range 16).map (Driver.lane part))
  ({ c with clocked := c.clocked ++ [.counter initial input load reset] }, input, load, reset, output)

/-- An ALU over existing Buses (R170): its result, zero flag and negative flag. -/
def Circuit.addAlu (c : Circuit) (x y control : Bus) : Except ConfigurationError (Circuit × Bus × SignalId × SignalId) :=
  if x.length = 16 ∧ y.length = 16 ∧ control.length = 5 then
    if (x ++ y ++ control).all fun s => decide (s < c.signals.length) then
      let part := c.alus.length
      let (c, out) := c.addSignals ((List.range 16).map (Driver.aluOut part))
      let (c, zr) := c.addSignal (.aluZr part)
      let (c, ng) := c.addSignal (.aluNg part)
      .ok ({ c with alus := c.alus ++ [{ x := x, y := y, control := control }] }, out, zr, ng)
    else .error .indexOutOfRange
  else .error .widthMismatch

/-! ### The end of construction, and what the environment does afterwards (R113, R121, R122) -/

/-- The contents of a clocked component before the first edge (R220). -/
def Clocked.initial : Clocked → Word
  | .register initial _ _ => initial
  | .counter initial _ _ _ => initial

/-- Construction is over: no pin has been set and no edge has been taken (R122). -/
def Circuit.start (c : Circuit) : Running :=
  { wiring := c, pins := [], contents := c.clocked.map Clocked.initial }

/-- A value listed for a pin, in place of any that was listed before. -/
def setPin : List (SignalId × Bool) → SignalId → Bool → List (SignalId × Bool)
  | [], s, v => [(s, v)]
  | (k, w) :: rest, s, v =>
    if s < k then (s, v) :: (k, w) :: rest
    else if s = k then (s, v) :: rest
    else (k, w) :: setPin rest s v

/-- `s.setValue(v)` (R113): legal on an input pin only. -/
def Running.setValue (r : Running) (s : SignalId) (v : Bool) : Except ConfigurationError Running :=
  match r.wiring.signals[s]? with
  | none => .error .indexOutOfRange
  | some .pin => .ok { r with pins := setPin r.pins s v }
  | some _ => .error .writeToDrivenSignal

/-- Lanes set, one after the other. -/
def setLanes : Running → Bus → List Bool → Except ConfigurationError Running
  | r, [], _ => .ok r
  | r, _ :: _, [] => .ok r
  | r, s :: b, v :: vs =>
    match r.setValue s v with
    | .ok r' => setLanes r' b vs
    | .error e => .error e

/-- `writeAsInteger(v)` (R121): every lane is a pin and gets its bit of v; if one is driven, nothing is changed. -/
def Running.writeAsInteger (r : Running) (b : Bus) (v : Int) : Except ConfigurationError Running :=
  setLanes r b (bitsOfInt b.length v)

/-! ### The clock edge (R211, R215, R218) -/

/-- The contents of a clocked component after an edge, from the settled values of the circuit before it; none if a pin it reads was
never set. -/
def Running.nextOf (m : CodeMap) (r : Running) (part : Clocked) (current : Word) : Option Word :=
  match part with
  | .register _ input load => do
    let v ← r.readUnsigned m input
    let l ← r.value m load
    pure (registerNext current (BitVec.ofNat 16 v) l)
  | .counter _ input load reset => do
    let v ← r.readUnsigned m input
    let l ← r.value m load
    let z ← r.value m reset
    pure (counterNext current (BitVec.ofNat 16 v) l z)

/-- The contents of all of them, each from the same settled values. -/
def Running.nextAll (m : CodeMap) (r : Running) : List Clocked → List Word → Option (List Word)
  | part :: parts, current :: rest => do
    let next ← r.nextOf m part current
    let others ← Running.nextAll m r parts rest
    pure (next :: others)
  | _, _ => some []

/-- One clock edge of a circuit: every Register and Counter commits at once (R218). -/
def Running.edge (m : CodeMap) (r : Running) : Option Running := do
  let contents ← r.nextAll m r.wiring.clocked r.contents
  pure { r with contents := contents }

end Sys2Proof.Machine
end

