-- ==== Sys2Proof/Machine/Netlist.lean ====
section
/-! DEFINITION. The reference netlist of R253, built as a circuit: the pins, g1 to g14, the mux tree t1, the ALU u1, the Registers A
and D and the Counter PC. Like R253 it wires R232 to R247 and has no rejection of its own (R248). -/

namespace Sys2Proof.Machine

/-- The boundary of the built CPU (R31), its two constants and the output of D. -/
structure CpuPorts where
  instruction : Bus
  memoryInput : Bus
  reset : SignalId
  /-- The constants 0 and 1 of the jump selector, pins set once (R253). -/
  low : SignalId
  high : SignalId
  memoryOutput : Bus
  memoryAddress : Bus
  memoryWrite : SignalId
  instructionAddress : Bus
  dOutput : Bus
  deriving DecidableEq, Repr

/-- The gates between the Instruction bus, the ALU and the jump selector, over Buses that exist already (R232 to R246). -/
def buildCpu (r : CpuRegs) : Except ConfigurationError (Circuit × CpuPorts) := do
  let (c, I) := Circuit.empty.addPins 16
  let (c, MI) := c.addPins 16
  let (c, reset) := c.addSignal .pin
  let (c, low) := c.addSignal .pin
  let (c, high) := c.addSignal .pin
  let (c, aIn, aLoad, A) := c.addRegister r.a
  let (c, dIn, dLoad, D) := c.addRegister r.d
  let (c, pcIn, pcLoad, pcReset, PC) := c.addCounter r.pc
  let type ← busIndex I 15
  let a ← busIndex I 11
  let control ← busRange I 10 6
  let dA ← busIndex I 5
  let dD ← busIndex I 4
  let dM ← busIndex I 3
  let jump ← busRange I 2 0
  let (c, g1) ← c.addAnd type a
  let (c, g2) ← c.addBusMux g1 A MI
  let (c, out, zr, ng) ← c.addAlu D g2 control
  let (c, g3) ← c.addBusMux type I out
  let (c, g4) ← c.addNot type
  let (c, g5) ← c.addAnd type dA
  let (c, g6) ← c.addOr g4 g5
  let (c, g7) ← c.addAnd type dD
  let (c, g8) ← c.addAnd type dM
  let (c, g9) ← c.addNot zr
  let (c, g10) ← c.addNot ng
  let (c, g11) ← c.addAnd g9 g10
  let (c, g12) ← c.addOr zr g10
  let (c, g13) ← c.addOr zr ng
  let (c, t1) ← c.addMuxTree jump [low, g11, zr, g12, ng, g9, g13, high]
  let (c, g14) ← c.addAnd type t1
  let c ← c.connectBus aIn g3
  let c ← c.connect aLoad g6
  let c ← c.connectBus dIn out
  let c ← c.connect dLoad g7
  let c ← c.connectBus pcIn A
  let c ← c.connect pcLoad g14
  let c ← c.connect pcReset reset
  pure (c,
    { instruction := I, memoryInput := MI, reset := reset, low := low, high := high, memoryOutput := out, memoryAddress := A, memoryWrite := g8,
      instructionAddress := PC, dOutput := D })

/-- The built CPU with its two constants set, once (R253). -/
def startCpu (c : Circuit) (ports : CpuPorts) : Except ConfigurationError Running := do
  let r ← c.start.setValue ports.low false
  r.setValue ports.high true

/-- The environment drives the three inputs (R116, R364). -/
def drivePins (r : Running) (ports : CpuPorts) (p : CpuPins) : Except ConfigurationError Running := do
  let r ← r.writeAsInteger ports.instruction p.instruction.toNat
  let r ← r.writeAsInteger ports.memoryInput p.memoryInput.toNat
  r.setValue ports.reset p.reset

/-- A 16-bit Bus read as a word. -/
def Running.readWord (m : CodeMap) (r : Running) (b : Bus) : Option Word := (r.readUnsigned m b).map (BitVec.ofNat 16)

/-- The three registers as their outputs show them (R212). -/
def readRegs (m : CodeMap) (r : Running) (ports : CpuPorts) : Option CpuRegs := do
  let a ← r.readWord m ports.memoryAddress
  let d ← r.readWord m ports.dOutput
  let pc ← r.readWord m ports.instructionAddress
  pure { a := a, d := d, pc := pc }

/-- The outputs of the settle phase (R31). -/
def readOutputs (m : CodeMap) (r : Running) (ports : CpuPorts) : Option CpuOutputs := do
  let memoryOutput ← r.readWord m ports.memoryOutput
  let memoryAddress ← r.readWord m ports.memoryAddress
  let memoryWrite ← r.value m ports.memoryWrite
  let instructionAddress ← r.readWord m ports.instructionAddress
  pure { memoryOutput := memoryOutput, memoryAddress := memoryAddress, memoryWrite := memoryWrite,
         instructionAddress := instructionAddress }

/-- The built CPU whose registers hold the given values, with its constants set and its input pins driven. -/
def drivenCpu (regs : CpuRegs) (p : CpuPins) : Except ConfigurationError (Running × CpuPorts) := do
  let (c, ports) ← buildCpu regs
  let r ← startCpu c ports
  let r ← drivePins r ports p
  pure (r, ports)

/-- One cycle of the built CPU: drive the pins, settle, read the outputs, take the edge, read the registers. -/
def netlistCycle (m : CodeMap) (regs : CpuRegs) (p : CpuPins) : Option (CpuRegs × CpuOutputs) :=
  match drivenCpu regs p with
  | .error _ => none
  | .ok (r, ports) => do
    let outputs ← readOutputs m r ports
    let r' ← r.edge m
    let regs' ← readRegs m r' ports
    pure (regs', outputs)

end Sys2Proof.Machine
end

