-- ==== Sys2Proof/Safety.lean ====
section
/-! DEFINITION. What counts as a safe state and a safe run, in the terms the statements use (R322, R365). -/

namespace Sys2Proof.Machine

/-- A compute word whose control code has no function in the map: the cycle that has it on the Instruction bus is rejected (R90,
R248). -/
def isRejected (m : CodeMap) (I : Word) : Bool := typeBit I && (m.fnOf (controlField I)).isNone

/-- In a unified memory the two spaces show the same array (R62, R252): every filled instruction cell holds what data memory holds
there. -/
abbrev Coherent (s : State) : Prop :=
  s.config.unifiedMemory = true → ∀ c ∈ s.imem, (s.dmem.find c.1).getD unlistedData = c.2

/-- The invariant of the machine: the configuration makes sense, both memories are in canonical form, a unified memory shows one
array, and every report kept is of a word that the map gives no function. -/
abbrev Inv (s : State) : Prop :=
  s.config.Wf ∧ s.dmem.Wf s.config.dmemWords ∧ s.imem.WfCode s.config.imemWords ∧ Coherent s ∧
    ∀ r ∈ s.reports, isRejected s.config.codeMap r.word = true

/-- The premise P-nofault of R365: no EncodingError has been reported. -/
def NoFault (s : State) : Prop := s.reports = []

/-- A run of n cycles that answers a state and has reported nothing: a successful run (R322, R360). -/
def SuccessfulRun (n : Nat) (s t : State) : Prop := Host.Core.run Sys2Proof.core n s = .next t ∧ NoFault t

end Sys2Proof.Machine
end

