-- ==== Sys2Proof/Certificates/Slice0/Obligations.lean ====
section
/-! DEFINITION. The statements for the provers, one def Obligations.<Name> : Prop each, and the few expressions they share: the
spec's own words for a jump condition, an exact result and the state after a compute instruction, written without the model's. -/

namespace Sys2Proof.Claims

open Sys2Proof.Machine

/-- R300 to R306: each jump code as a comparison of sval(out) with 0. -/
def comparesWithZero (j : Jump) (out : Word) : Bool :=
  match j with
  | .never => false
  | .gt => decide (out.toInt > 0)
  | .eq => decide (out.toInt = 0)
  | .ge => decide (out.toInt ≥ 0)
  | .lt => decide (out.toInt < 0)
  | .ne => decide (out.toInt ≠ 0)
  | .le => decide (out.toInt ≤ 0)
  | .always => true

/-- R172: the exact integer result of an arithmetic function; none for the six boolean functions. -/
def exactResult (f : AluFn) : Option (Int → Int → Int) :=
  match f with
  | .zero => some fun _ _ => 0
  | .one => some fun _ _ => 1
  | .passX => some fun x _ => x
  | .passY => some fun _ y => y
  | .negX => some fun x _ => 0 - x
  | .negY => some fun _ y => 0 - y
  | .notX => some fun x _ => 65535 - x
  | .notY => some fun _ y => 65535 - y
  | .incX => some fun x _ => x + 1
  | .incY => some fun _ y => y + 1
  | .decX => some fun x _ => x - 1
  | .decY => some fun _ y => y - 1
  | .add => some fun x y => x + y
  | .subXY => some fun x y => x - y
  | .subYX => some fun x y => y - x
  | .and => none
  | .or => none
  | .xor => none

/-- A 1-bit function applied lane by lane (R192 to R194). -/
def laneWise (g : Bool → Bool → Bool) (x y : Word) : Word :=
  BitVec.ofFnLE fun i : Fin 16 => g (x.getLsbD i) (y.getLsbD i)

/-- Operand Y (R271): the data cell at A if a = 1, else A. -/
def operandYWord (y : YSource) (s : State) : Word := if y = .mem then s.dmem.read s.a else s.a

/-- The state after a compute instruction with result `out` (R271): every source on the right is the pre-edge value. -/
def afterCompute (out : Word) (dst : Dest) (j : Jump) (s : State) : State :=
  { s with
    a := if dst.toA then out else s.a
    d := if dst.toD then out else s.d
    pc := if s.resetPin then 0#16 else if comparesWithZero j out then s.a else BitVec.ofNat 16 (s.pc.toNat + 1)
    dmem := if dst.toM then s.dmem.write s.a out else s.dmem
    imem := if dst.toM && s.config.unifiedMemory then s.imem.put s.a.toNat out else s.imem
    resetPins := s.resetPins.tail }

/-- The ALU result of a compute word with function f (R250): X is D, Y by bit 11. -/
def wordResult (f : AluFn) (I : Word) (s : State) : Word :=
  aluOut f s.d (if I.getLsbD 11 then s.dmem.read s.a else s.a)

/-- A word with other spare bits. -/
def withSpare (w : Word) (sp : BitVec 3) : Word := (w &&& 0x8FFF#16) ||| (sp.setWidth 16 <<< 12)

/-- R94: the canonical word of what a word decodes to: spare bits 000 in a compute word whose code has a function. -/
def canonicalWord (m : CodeMap) (w : Word) : Word :=
  if typeBit w && (m.fnOf (controlField w)).isSome then withSpare w 0#3 else w

/-- ALU number `part` reads Signal `u` (R170). -/
def aluReads (c : Circuit) (part : Nat) (u : SignalId) : Prop :=
  ∃ p, c.alus[part]? = some p ∧ (u ∈ p.x ∨ u ∈ p.y ∨ u ∈ p.control)

/-- R123: what drives Signal `w` reads Signal `u` in the same cycle. A pin reads nothing, and neither does the output of a Register or
Counter. -/
def feeds (c : Circuit) (u w : SignalId) : Prop :=
  match c.signals[w]? with
  | none => False
  | some .pin => False
  | some (.wire t) => u = t
  | some (.notOf x) => u = x
  | some (.andOf x y) => u = x ∨ u = y
  | some (.orOf x y) => u = x ∨ u = y
  | some (.muxOf ctl x y) => u = ctl ∨ u = x ∨ u = y
  | some (.lane _ _) => False
  | some (.aluOut part _) => aluReads c part u
  | some (.aluZr part) => aluReads c part u
  | some (.aluNg part) => aluReads c part u

end Sys2Proof.Claims

open Sys2Proof Sys2Proof.Machine

/-- Every well-formed instruction has a word, and decoding it gives the instruction back (30_encoding.md R81-R94, R92, R94, log
entry 5 (default map)). The model's choice: the default map (log entry 5, the spec's decision D1). -/
def Obligations.DecodeInvertsEncode : Prop :=
  ∀ i : Instr, i.wf = true → ∃ w : Word, encode i = some w ∧ decode w = .ok i

/-- Decoding inverts encoding under every ALU_CODE_MAP that is a map (R6, R85, R92, R94). -/
def Obligations.DecodeInvertsEncodeForEveryMap : Prop :=
  ∀ (m : CodeMap) (i : Instr) (w : Word), m.Functional → i.wf = true → encodeWith m i = some w → decodeWith m w = .ok i

/-- Encoding what was decoded gives the word back with its spare bits cleared (R89, R92, R94, log entry 12 (canonical spare
bits)). The model's choice: the canonical word has spare bits 000 (log entry 12). -/
def Obligations.EncodeInvertsDecode : Prop :=
  ∀ (w : Word) (i : Instr), decode w = .ok i → encode i = some (Claims.canonicalWord aluCodeMap w)

/-- All eight values of the spare bits of a compute word decode alike and none is an error (R89). -/
def Obligations.SpareBitsAreIgnored : Prop :=
  (∀ (m : CodeMap) (w : Word) (sp : BitVec 3), typeBit w = true → (m.fnOf (controlField w)).isSome = true →
    decodeWith m (Claims.withSpare w sp) = decodeWith m w ∧ ∃ i, decodeWith m w = .ok i) ∧
  ∀ (m : CodeMap) (f : AluFn) (y : YSource) (dst : Dest) (j : Jump) (w : Word),
    encodeWith m (Instr.compute f y dst j) = some w → spareField w = 0#3

/-- Every word is an addressing instruction, a compute instruction or reserved, by its type bit and control code alone (R82,
R83, R90, R92). -/
def Obligations.DecoderClassifiesEveryWord : Prop :=
  ∀ w : Word,
    (w.getLsbD 15 = false → decode w = .ok (.addressing (w.extractLsb' 0 15))) ∧
    (w.getLsbD 15 = true → (controlField w).toNat < 18 →
      ∃ f, aluCodeMap.fnOf (controlField w) = some f ∧
        decode w = .ok (Instr.compute f (if w.getLsbD 11 then .mem else .regA)
          ⟨w.getLsbD 5, w.getLsbD 4, w.getLsbD 3⟩ (Jump.ofCode (w.extractLsb' 0 3)))) ∧
    (w.getLsbD 15 = true → 18 ≤ (controlField w).toNat → (controlField w).toNat < 20 → decode w = .ok (.reserved18to19 w)) ∧
    (w.getLsbD 15 = true → 20 ≤ (controlField w).toNat → (controlField w).toNat < 24 → decode w = .ok (.reserved20to23 w)) ∧
    (w.getLsbD 15 = true → 24 ≤ (controlField w).toNat → decode w = .ok (.reserved24to31 w))

/-- Words written out from the encoding decode to the instructions they stand for (95_test_vectors.md 2.6, R83, R94). -/
def Obligations.WrittenWordsDecode : Prop :=
  decode 0b0000000000000101#16 = .ok (.addressing 5#15) ∧
    decode 0b1000001001100000#16 = .ok (.incY .regA ⟨true, false, false⟩ .never) ∧
    decode 0b1111001001100000#16 = .ok (.incY .regA ⟨true, false, false⟩ .never) ∧
    decode 0b1000000010000010#16 = .ok (.passX .regA ⟨false, false, false⟩ .eq) ∧
    decode 0b1000100011010000#16 = .ok (.passY .mem ⟨false, true, false⟩ .never) ∧
    decode 0b1000101100001000#16 = .ok (.add .mem ⟨false, false, true⟩ .never) ∧
    decode 0b1000110000111101#16 = .ok (.or .mem ⟨true, true, true⟩ .ne) ∧
    decode 0b1000010001111111#16 = .ok (.xor .regA ⟨true, true, true⟩ .always) ∧
    decode 0b1000100000010000#16 = .ok (.zero .mem ⟨false, true, false⟩ .never) ∧
    decode 0b1000010010000000#16 = .ok (.reserved18to19 0x8480#16) ∧
    decode 0b1000011111000000#16 = .ok (.reserved24to31 0x87C0#16)

/-- Every arithmetic function of the ALU is the exact integer result modulo 2^16, read unsigned or signed (R172). -/
def Obligations.AluFollowsIntegerArithmeticModulo : Prop :=
  (∀ (f : AluFn) (X Y : Word) (e : Int → Int → Int), Claims.exactResult f = some e →
    ((aluOut f X Y).toNat : Int) = e X.toNat Y.toNat % 65536 ∧ ((aluOut f X Y).toNat : Int) = e X.toInt Y.toInt % 65536) ∧
  aluOut .add 0x7FFF#16 1#16 = 0x8000#16 ∧ aluOut .decX 0#16 0#16 = 0xFFFF#16 ∧ aluOut .negX 0x8000#16 0#16 = 0x8000#16 ∧
  aluOut .add 0xFFFF#16 0xFFFF#16 = 0xFFFE#16

/-- zr is all-zero bits, ng is bit 15, and the two are never both 1 (R173, R174, R196). -/
def Obligations.FlagsOfAResult : Prop :=
  ∀ out : Word,
    (zeroFlag out = true ↔ ∀ i, i < 16 → out.getLsbD i = false) ∧ (zeroFlag out = true ↔ out.toNat = 0) ∧
    (negativeFlag out = out.getLsbD 15) ∧ (negativeFlag out = true ↔ out.toInt < 0) ∧
    (out = 0#16 → zeroFlag out = true ∧ negativeFlag out = false) ∧
    (out.getLsbD 15 = true → zeroFlag out = false ∧ negativeFlag out = true) ∧
    (out ≠ 0#16 → out.getLsbD 15 = false → zeroFlag out = false ∧ negativeFlag out = false)

/-- Each jump code is the signed comparison of the result with zero that its rule names (R87, R243). -/
def Obligations.JumpFieldComparesTheResultWithZero : Prop :=
  (∀ (j : Jump) (out : Word), jumpTaken j out = Claims.comparesWithZero j out) ∧
  (∀ zr ng : Bool,
    ((List.finRange 8).map fun k => jumpCondition (Jump.ofCode (BitVec.ofFin k)) zr ng) =
      [false, !zr && !ng, zr, zr || !ng, ng, !zr, zr || ng, true]) ∧
  (∀ (b : BitVec 3) (zr ng : Bool), (zr && ng) = false →
    jumpCondition (Jump.ofCode b) zr ng =
      (b.getLsbD 2 && ng || b.getLsbD 1 && zr || b.getLsbD 0 && !zr && !ng))

/-- The tree of 2-way MUXes computes the data input whose index the control bits spell (R162). -/
def Obligations.MuxTreeSelectsTheIndexedInput : Prop :=
  ∀ (k : Nat) (ctl ins : List Bool), ctl.length = k → ins.length = 2 ^ k → muxTree k ctl ins = ins.getD (bitsToNat ctl) false

/-- The CPU's 8-way mux tree selects exactly the jump code's condition in all 32 cases (R166, R244). -/
def Obligations.JumpMuxTreeSelectsTheCondition : Prop :=
  ∀ (b : BitVec 3) (zr ng : Bool),
    muxTree 3 [b.getLsbD 0, b.getLsbD 1, b.getLsbD 2] (conditionWires zr ng) = jumpCondition (Jump.ofCode b) zr ng

/-- Bus-wide gates apply the 1-bit gate independently per lane (R145, R146). -/
def Obligations.BusGatesActLaneByLane : Prop :=
  ∀ (n : Nat) (x y : BitVec n) (c : Bool) (i : Nat), i < n →
    (busNot x).getLsbD i = notGate (x.getLsbD i) ∧
    (busAnd x y).getLsbD i = andGate (x.getLsbD i) (y.getLsbD i) ∧
    (busOr x y).getLsbD i = orGate (x.getLsbD i) (y.getLsbD i) ∧
    (busMux c x y).getLsbD i = muxGate c (x.getLsbD i) (y.getLsbD i)

/-- The four gates' truth tables, and the testable properties of the bus-wide gates (R140, R141, R142, R143, R149). -/
def Obligations.GatesHaveTheirTruthTables : Prop :=
  (notGate false = true ∧ notGate true = false) ∧
  (andGate false false = false ∧ andGate false true = false ∧ andGate true false = false ∧ andGate true true = true) ∧
  (orGate false false = false ∧ orGate false true = true ∧ orGate true false = true ∧ orGate true true = true) ∧
  (∀ x y : Bool, muxGate false x y = x ∧ muxGate true x y = y) ∧
  (∀ (c x y : Bool), muxGate c x y = orGate (andGate (notGate c) x) (andGate c y)) ∧
  ∀ (n : Nat) (x : BitVec n) (c : Bool),
    (busNot x).toNat = 2 ^ n - 1 - x.toNat ∧ busAnd x x = x ∧ (busOr x (busNot x)).toNat = 2 ^ n - 1 ∧ busMux c x x = x

/-- A Register holds when load = 0 and takes its input when load = 1 (R211, R213). -/
def Obligations.RegisterHoldsOrLoads : Prop :=
  ∀ current input : Word, registerNext current input false = current ∧ registerNext current input true = input

/-- A Counter resets before it loads, loads before it counts, and counts modulo 2^16 (R215, R216, R217). -/
def Obligations.CounterResetsLoadsOrCounts : Prop :=
  (∀ (current input : Word) (load : Bool), counterNext current input load true = 0#16) ∧
  (∀ current input : Word, counterNext current input true false = input) ∧
  (∀ current input : Word, (counterNext current input false false).toNat = (current.toNat + 1) % 65536) ∧
  ∀ input : Word, counterNext 0xFFFF#16 input false false = 0#16

/-- A step runs the decoded instruction at the pre-edge PC, or stops or rejects by name (R231, R248, R252, R53, 20_memory.md
R65, log entries 7, 8). The model's choice: the fault absentInstructionCell (log entry 7) and the refusal unloadedInstruction
(log entry 8) by which the last two clauses stop. -/
def Obligations.StepIsFetchDecodeExecute : Prop :=
  (∀ (s : State) (I : Word) (i : Instr), s.pc.toNat < s.config.imemWords → s.imem.find s.pc.toNat = some I →
    decodeWith s.config.codeMap I = .ok i → step s = exec i s) ∧
  (∀ (s : State) (I : Word) (e : DecodeError), s.pc.toNat < s.config.imemWords → s.imem.find s.pc.toNat = some I →
    decodeWith s.config.codeMap I = .error e → step s = .next (rejectCycle I s)) ∧
  (∀ s : State, s.pc.toNat < s.config.imemWords → s.imem.find s.pc.toNat = none →
    step s = .refused (.unloadedInstruction s.pc)) ∧
  ∀ s : State, ¬ s.pc.toNat < s.config.imemWords → step s = .fault (.absentInstructionCell s.pc)

/-- @value loads A with the zero-extended literal, steps the PC and leaves everything else (R270). -/
def Obligations.AddressingLoadsALiteral : Prop :=
  ∀ (v : BitVec 15) (s : State),
    encode (.addressing v) = some (v.setWidth 16) ∧
    exec (.addressing v) s = .next { s with
      a := v.setWidth 16
      pc := if s.resetPin then 0#16 else BitVec.ofNat 16 (s.pc.toNat + 1)
      resetPins := s.resetPins.tail }

/-- comp 0: out = 0, stored as dest says, with the PC step (R272). -/
def Obligations.ZeroCompletes : Prop :=
  ∀ (y : YSource) (dst : Dest) (j : Jump) (s : State),
    encode (.zero y dst j) = some (computeWord y.bit 0#5 dst.bits j.code) ∧
    ((dst.toM = true → s.a.toNat < s.config.dmemWords) →
      exec (.zero y dst j) s = .next (Claims.afterCompute (0x0000#16) dst j s))

/-- comp 1: out = 1, stored as dest says, with the PC step (R273). -/
def Obligations.OneCompletes : Prop :=
  ∀ (y : YSource) (dst : Dest) (j : Jump) (s : State),
    encode (.one y dst j) = some (computeWord y.bit 1#5 dst.bits j.code) ∧
    ((dst.toM = true → s.a.toNat < s.config.dmemWords) →
      exec (.one y dst j) s = .next (Claims.afterCompute (0x0001#16) dst j s))

/-- comp D: out = D, stored as dest says, with the PC step (R274). -/
def Obligations.PassXCompletes : Prop :=
  ∀ (y : YSource) (dst : Dest) (j : Jump) (s : State),
    encode (.passX y dst j) = some (computeWord y.bit 2#5 dst.bits j.code) ∧
    ((dst.toM = true → s.a.toNat < s.config.dmemWords) →
      exec (.passX y dst j) s = .next (Claims.afterCompute (s.d) dst j s))

/-- comp A or M: out = Y, stored as dest says, with the PC step (R275). -/
def Obligations.PassYCompletes : Prop :=
  ∀ (y : YSource) (dst : Dest) (j : Jump) (s : State),
    encode (.passY y dst j) = some (computeWord y.bit 3#5 dst.bits j.code) ∧
    ((y = .mem ∨ dst.toM = true → s.a.toNat < s.config.dmemWords) →
      exec (.passY y dst j) s = .next (Claims.afterCompute (Claims.operandYWord y s) dst j s))

/-- comp -D: out = (0 - D) mod 2^16, stored as dest says, with the PC step (R276). -/
def Obligations.NegXCompletes : Prop :=
  ∀ (y : YSource) (dst : Dest) (j : Jump) (s : State),
    encode (.negX y dst j) = some (computeWord y.bit 4#5 dst.bits j.code) ∧
    ((dst.toM = true → s.a.toNat < s.config.dmemWords) →
      exec (.negX y dst j) s = .next (Claims.afterCompute (BitVec.ofInt 16 (0 - (s.d.toNat : Int))) dst j s))

/-- comp -A or -M: out = (0 - Y) mod 2^16, stored as dest says, with the PC step (R277). -/
def Obligations.NegYCompletes : Prop :=
  ∀ (y : YSource) (dst : Dest) (j : Jump) (s : State),
    encode (.negY y dst j) = some (computeWord y.bit 5#5 dst.bits j.code) ∧
    ((y = .mem ∨ dst.toM = true → s.a.toNat < s.config.dmemWords) →
      exec (.negY y dst j) s = .next (Claims.afterCompute (BitVec.ofInt 16 (0 - ((Claims.operandYWord y s).toNat : Int))) dst j s))

/-- comp !D: out = ~D, that is uval(out) = 65535 - uval(D), stored as dest says, with the PC step (R278). -/
def Obligations.NotXCompletes : Prop :=
  ∀ (y : YSource) (dst : Dest) (j : Jump) (s : State),
    encode (.notX y dst j) = some (computeWord y.bit 6#5 dst.bits j.code) ∧
    ((dst.toM = true → s.a.toNat < s.config.dmemWords) →
      exec (.notX y dst j) s = .next (Claims.afterCompute (BitVec.ofNat 16 (65535 - s.d.toNat)) dst j s))

/-- comp !A or !M: out = ~Y, that is uval(out) = 65535 - uval(Y), stored as dest says, with the PC step (R279). -/
def Obligations.NotYCompletes : Prop :=
  ∀ (y : YSource) (dst : Dest) (j : Jump) (s : State),
    encode (.notY y dst j) = some (computeWord y.bit 7#5 dst.bits j.code) ∧
    ((y = .mem ∨ dst.toM = true → s.a.toNat < s.config.dmemWords) →
      exec (.notY y dst j) s = .next (Claims.afterCompute (BitVec.ofNat 16 (65535 - (Claims.operandYWord y s).toNat)) dst j s))

/-- comp D+1: out = (D + 1) mod 2^16, stored as dest says, with the PC step (R280). -/
def Obligations.IncXCompletes : Prop :=
  ∀ (y : YSource) (dst : Dest) (j : Jump) (s : State),
    encode (.incX y dst j) = some (computeWord y.bit 8#5 dst.bits j.code) ∧
    ((dst.toM = true → s.a.toNat < s.config.dmemWords) →
      exec (.incX y dst j) s = .next (Claims.afterCompute (BitVec.ofNat 16 (s.d.toNat + 1)) dst j s))

/-- comp A+1 or M+1: out = (Y + 1) mod 2^16, stored as dest says, with the PC step (R281). -/
def Obligations.IncYCompletes : Prop :=
  ∀ (y : YSource) (dst : Dest) (j : Jump) (s : State),
    encode (.incY y dst j) = some (computeWord y.bit 9#5 dst.bits j.code) ∧
    ((y = .mem ∨ dst.toM = true → s.a.toNat < s.config.dmemWords) →
      exec (.incY y dst j) s = .next (Claims.afterCompute (BitVec.ofNat 16 ((Claims.operandYWord y s).toNat + 1)) dst j s))

/-- comp D-1: out = (D - 1) mod 2^16, stored as dest says, with the PC step (R282). -/
def Obligations.DecXCompletes : Prop :=
  ∀ (y : YSource) (dst : Dest) (j : Jump) (s : State),
    encode (.decX y dst j) = some (computeWord y.bit 10#5 dst.bits j.code) ∧
    ((dst.toM = true → s.a.toNat < s.config.dmemWords) →
      exec (.decX y dst j) s = .next (Claims.afterCompute (BitVec.ofInt 16 ((s.d.toNat : Int) - 1)) dst j s))

/-- comp A-1 or M-1: out = (Y - 1) mod 2^16, stored as dest says, with the PC step (R283). -/
def Obligations.DecYCompletes : Prop :=
  ∀ (y : YSource) (dst : Dest) (j : Jump) (s : State),
    encode (.decY y dst j) = some (computeWord y.bit 11#5 dst.bits j.code) ∧
    ((y = .mem ∨ dst.toM = true → s.a.toNat < s.config.dmemWords) →
      exec (.decY y dst j) s = .next (Claims.afterCompute (BitVec.ofInt 16 (((Claims.operandYWord y s).toNat : Int) - 1)) dst j s))

/-- comp D+A or D+M: out = (D + Y) mod 2^16, stored as dest says, with the PC step (R284). -/
def Obligations.AddCompletes : Prop :=
  ∀ (y : YSource) (dst : Dest) (j : Jump) (s : State),
    encode (.add y dst j) = some (computeWord y.bit 12#5 dst.bits j.code) ∧
    ((y = .mem ∨ dst.toM = true → s.a.toNat < s.config.dmemWords) →
      exec (.add y dst j) s = .next (Claims.afterCompute (BitVec.ofNat 16 (s.d.toNat + (Claims.operandYWord y s).toNat)) dst j s))

/-- comp D-A or D-M: out = (D - Y) mod 2^16, stored as dest says, with the PC step (R285). -/
def Obligations.SubXYCompletes : Prop :=
  ∀ (y : YSource) (dst : Dest) (j : Jump) (s : State),
    encode (.subXY y dst j) = some (computeWord y.bit 13#5 dst.bits j.code) ∧
    ((y = .mem ∨ dst.toM = true → s.a.toNat < s.config.dmemWords) →
      exec (.subXY y dst j) s = .next (Claims.afterCompute (BitVec.ofInt 16 ((s.d.toNat : Int) - (Claims.operandYWord y s).toNat)) dst j s))

/-- comp A-D or M-D: out = (Y - D) mod 2^16, stored as dest says, with the PC step (R286). -/
def Obligations.SubYXCompletes : Prop :=
  ∀ (y : YSource) (dst : Dest) (j : Jump) (s : State),
    encode (.subYX y dst j) = some (computeWord y.bit 14#5 dst.bits j.code) ∧
    ((y = .mem ∨ dst.toM = true → s.a.toNat < s.config.dmemWords) →
      exec (.subYX y dst j) s = .next (Claims.afterCompute (BitVec.ofInt 16 (((Claims.operandYWord y s).toNat : Int) - s.d.toNat)) dst j s))

/-- comp D&A or D&M: out = D AND Y lane by lane, stored as dest says, with the PC step (R287). -/
def Obligations.AndCompletes : Prop :=
  ∀ (y : YSource) (dst : Dest) (j : Jump) (s : State),
    encode (.and y dst j) = some (computeWord y.bit 15#5 dst.bits j.code) ∧
    ((y = .mem ∨ dst.toM = true → s.a.toNat < s.config.dmemWords) →
      exec (.and y dst j) s = .next (Claims.afterCompute (Claims.laneWise (fun p q => p && q) s.d (Claims.operandYWord y s)) dst j s))

/-- comp D|A or D|M: out = D OR Y lane by lane, stored as dest says, with the PC step (R288). -/
def Obligations.OrCompletes : Prop :=
  ∀ (y : YSource) (dst : Dest) (j : Jump) (s : State),
    encode (.or y dst j) = some (computeWord y.bit 16#5 dst.bits j.code) ∧
    ((y = .mem ∨ dst.toM = true → s.a.toNat < s.config.dmemWords) →
      exec (.or y dst j) s = .next (Claims.afterCompute (Claims.laneWise (fun p q => p || q) s.d (Claims.operandYWord y s)) dst j s))

/-- comp D^A or D^M: out = D XOR Y lane by lane, stored as dest says, with the PC step (R289). -/
def Obligations.XorCompletes : Prop :=
  ∀ (y : YSource) (dst : Dest) (j : Jump) (s : State),
    encode (.xor y dst j) = some (computeWord y.bit 17#5 dst.bits j.code) ∧
    ((y = .mem ∨ dst.toM = true → s.a.toNat < s.config.dmemWords) →
      exec (.xor y dst j) s = .next (Claims.afterCompute (Claims.laneWise (fun p q => p != q) s.d (Claims.operandYWord y s)) dst j s))

/-- A reserved row commits nothing, holds the PC and reports its word (R322, R321, log entry 4). The model's choice: a report is
a word and a PC in a list that State keeps (log entry 4). -/
def Obligations.ReservedRowsAreRejected : Prop :=
  ∀ (w : Word) (s : State) (i : Instr), i = .reserved18to19 w ∨ i = .reserved20to23 w ∨ i = .reserved24to31 w →
    exec i s = .next { s with
      pc := if s.resetPin then 0#16 else s.pc
      resetPins := s.resetPins.tail
      reports := { word := w, pc := s.pc } :: s.reports }

/-- A compute instruction changes only the destinations its dest bits name (R290, R237, R24, R62). -/
def Obligations.ComputeInstructionsFrame : Prop :=
  ∀ (f : AluFn) (y : YSource) (dst : Dest) (j : Jump) (s t : State), exec (Instr.compute f y dst j) s = .next t →
    (dst.toA = false → t.a = s.a) ∧ (dst.toD = false → t.d = s.d) ∧
    (∀ x : Word, (dst.toM = true → x ≠ s.a) → t.dmem.read x = s.dmem.read x) ∧
    (∀ n : Nat, (dst.toM = true → s.config.unifiedMemory = true → n ≠ s.a.toNat) → t.imem.find n = s.imem.find n) ∧
    t.reports = s.reports ∧ t.config = s.config ∧ t.resetPins = s.resetPins.tail

/-- The addressing instruction changes nothing but A and the PC (R270, R242, R245). -/
def Obligations.AddressingFrame : Prop :=
  ∀ (v : BitVec 15) (s t : State), exec (.addressing v) s = .next t →
    t.d = s.d ∧ (∀ x : Word, t.dmem.read x = s.dmem.read x) ∧ (∀ n : Nat, t.imem.find n = s.imem.find n) ∧
    t.reports = s.reports ∧ t.config = s.config ∧ t.resetPins = s.resetPins.tail

/-- The next PC of every cycle (R307). -/
def Obligations.NextPcOfEveryStep : Prop :=
  ∀ (s t : State) (I : Word), fetch s = .word I → step s = .next t →
    t.pc =
      if s.resetPin then 0#16
      else if I.getLsbD 15 then
        match s.config.codeMap.fnOf (controlField I) with
        | some f =>
          if Claims.comparesWithZero (Jump.ofCode (jumpField I)) (Claims.wordResult f I s) then s.a
          else BitVec.ofNat 16 (s.pc.toNat + 1)
        | none => s.pc
      else BitVec.ofNat 16 (s.pc.toNat + 1)

/-- A and D change exactly when their load signals say, to the value their inputs carry (R240, R241, R242). -/
def Obligations.RegistersChangeAsTheirLoadsSay : Prop :=
  ∀ (s t : State) (I : Word), fetch s = .word I → step s = .next t →
    t.a = (if I.getLsbD 15 then
        match s.config.codeMap.fnOf (controlField I) with
        | some f => if I.getLsbD 5 then Claims.wordResult f I s else s.a
        | none => s.a
      else I) ∧
    t.d = (if I.getLsbD 15 then
        match s.config.codeMap.fnOf (controlField I) with
        | some f => if I.getLsbD 4 then Claims.wordResult f I s else s.d
        | none => s.d
      else s.d)

/-- Data memory changes only at the old A, only when MemoryWrite is 1, to the ALU result (R52, R239). -/
def Obligations.DataMemoryChangesAsMemoryWriteSays : Prop :=
  ∀ (s t : State) (I : Word) (x : Word), fetch s = .word I → step s = .next t →
    t.dmem.read x =
      if I.getLsbD 15 && I.getLsbD 3 then
        match s.config.codeMap.fnOf (controlField I) with
        | some f => if x = s.a then Claims.wordResult f I s else s.dmem.read x
        | none => s.dmem.read x
      else s.dmem.read x

/-- No step changes an instruction word unless the memory is unified, and then the next fetch sees the store (R62). -/
def Obligations.InstructionMemoryChangesOnlyIfUnified : Prop :=
  (∀ s t : State, s.config.unifiedMemory = false → step s = .next t → t.imem = s.imem) ∧
  ∀ (s t : State) (I : Word), s.config.unifiedMemory = true → fetch s = .word I → step s = .next t →
    (∀ f, I.getLsbD 15 = true → I.getLsbD 3 = true → s.config.codeMap.fnOf (controlField I) = some f →
      (s.a.toNat < s.config.imemWords → fetch { t with pc := s.a } = .word (Claims.wordResult f I s)) ∧
      ∀ n : Nat, n ≠ s.a.toNat → t.imem.find n = s.imem.find n) ∧
    ((I.getLsbD 15 && I.getLsbD 3 && (s.config.codeMap.fnOf (controlField I)).isSome) = false → t.imem = s.imem)

/-- No step changes the platform's parameters, and each step consumes one level of the Reset pin (R6, R30, R354). -/
def Obligations.StepChangesNoParameter : Prop :=
  ∀ s t : State, step s = .next t → t.config = s.config ∧ t.resetPins = s.resetPins.tail

/-- At an edge with Reset = 1 the instruction does all it does with Reset = 0, but the PC becomes 0 (R350, R351). -/
def Obligations.ResetReplacesOnlyThePc : Prop :=
  ∀ (s t : State) (levels : List Bool), step { s with resetPins := false :: levels } = .next t →
    step { s with resetPins := true :: levels } = .next { t with pc := 0#16 }

/-- A cycle reports an EncodingError exactly when its word is a compute word whose control code has no function (R90, R321,
R322, log entry 4). The model's choice: a report is a word and a PC put at the head of a list that State keeps (log entry 4). -/
def Obligations.EncodingErrorExactlyOnCodesWithoutFunction : Prop :=
  (∀ (s t : State) (I : Word), fetch s = .word I → step s = .next t →
    t.reports =
      if I.getLsbD 15 && (s.config.codeMap.fnOf (controlField I)).isNone then { word := I, pc := s.pc } :: s.reports
      else s.reports) ∧
  ∀ c : BitVec 5, (aluCodeMap.fnOf c).isNone = decide (18 ≤ c.toNat)

/-- With Reset = 0 the machine stays on a rejected word and reports it again at every edge (R322, R328, log entry 4). The
model's choice: the reports stand in State (log entry 4). -/
def Obligations.RejectedWordHoldsTheMachine : Prop :=
  ∀ (n : Nat) (s : State) (I : Word), fetch s = .word I → isRejected s.config.codeMap I = true → (∀ b ∈ s.resetPins, b = false) →
    ∃ t, Host.Core.run Sys2Proof.core n s = .next t ∧ t.a = s.a ∧ t.d = s.d ∧ t.pc = s.pc ∧ t.dmem = s.dmem ∧ t.imem = s.imem ∧
      t.config = s.config ∧ t.reports = List.replicate n { word := I, pc := s.pc } ++ s.reports

/-- No run forgets a report, so a faulted run stays faulted (R322, R364, log entry 4). The model's choice: the reports stand in
State (log entry 4). -/
def Obligations.ReportsAreKept : Prop :=
  (∀ (n : Nat) (s t : State), Host.Core.run Sys2Proof.core n s = .next t → ∃ newer, t.reports = newer ++ s.reports) ∧
  ∀ (n : Nat) (s t : State), ¬ NoFault s → ¬ SuccessfulRun n s t

/-- The state after reset meets the invariant, with PC = 0 and nothing reported (R33, R350, log entries 1, 2, 3). The model's
choice: the reset values of A, D, data memory and the Reset pin (log entries 1, 2, 3). -/
def Obligations.InvariantHoldsAtReset : Prop :=
  Inv State.reset ∧ State.reset.pc = 0#16 ∧ NoFault State.reset

/-- Every step keeps the memories canonical and within the platform, a unified memory one array, and reports true (R52, R57,
R62, R90, R322). -/
def Obligations.StepKeepsInvariant : Prop :=
  ∀ s t : State, Inv s → step s = .next t → Inv t

/-- With every data address present, a loaded word always executes: nothing in the data path fails (R320, R55, R65). -/
def Obligations.StepCompletesOnTheDefaultSizes : Prop :=
  ∀ (s : State) (I : Word), fetch s = .word I → 65536 ≤ s.config.dmemWords → ∃ t, step s = .next t

/-- On a platform with fewer data cells, an instruction that reads or writes an absent cell has no next state (R65,
93_implementation_defined.md U11, log entries 7, 10). The model's choice: that it is a fault (log entry 7), and that a function
that ignores Y does not stop (log entry 10). -/
def Obligations.AbsentCellStopsTheInstruction : Prop :=
  ∀ (f : AluFn) (y : YSource) (dst : Dest) (j : Jump) (s : State), ¬ s.a.toNat < s.config.dmemWords →
    (y = .mem ∧ f ∈ [.passY, .negY, .notY, .incY, .decY, .add, .subXY, .subYX, .and, .or, .xor]) ∨ dst.toM = true → exec (Instr.compute f y dst j) s = .fault (.absentDataCell s.a)

/-- For the seven functions that do not read Y both values of the a bit execute identically (R91). -/
def Obligations.UnusedABitChangesNothing : Prop :=
  ∀ (dst : Dest) (j : Jump) (s : State),
    exec (.zero .mem dst j) s = exec (.zero .regA dst j) s ∧ exec (.one .mem dst j) s = exec (.one .regA dst j) s ∧
    exec (.passX .mem dst j) s = exec (.passX .regA dst j) s ∧ exec (.negX .mem dst j) s = exec (.negX .regA dst j) s ∧
    exec (.notX .mem dst j) s = exec (.notX .regA dst j) s ∧ exec (.incX .mem dst j) s = exec (.incX .regA dst j) s ∧
    exec (.decX .mem dst j) s = exec (.decX .regA dst j) s

/-- A step of the machine is one cycle of the closed system around the CPU step function of R250 (R252). -/
def Obligations.StepRefinesTheCpuStepFunction : Prop :=
  ∀ (s : State) (I : Word), fetch s = .word I → s.a.toNat < s.config.dmemWords →
    step s = .next (s.afterCpu (cpuStep s.config.codeMap s.cpuRegs (s.cpuPins I)))

/-- The decode network in gates, mux tree, ALU, Registers and Counter computes the step function of R250 (R232-R249, R250,
R253). -/
def Obligations.WiredCpuRefinesTheStepFunction : Prop :=
  ∀ (m : CodeMap) (r : CpuRegs) (p : CpuPins),
    (wiredCycle m r p).next = (cpuStep m r p).next ∧ (wiredCycle m r p).report = (cpuStep m r p).report ∧
    (wiredCycle m r p).outputs.memoryAddress = (cpuStep m r p).outputs.memoryAddress ∧
    (wiredCycle m r p).outputs.memoryWrite = (cpuStep m r p).outputs.memoryWrite ∧
    (wiredCycle m r p).outputs.instructionAddress = (cpuStep m r p).outputs.instructionAddress ∧
    (p.instruction.getLsbD 15 = true → (m.fnOf (controlField p.instruction)).isSome = true →
      (wiredCycle m r p).outputs.memoryOutput = (cpuStep m r p).outputs.memoryOutput)

/-- MemoryAddress is A, InstructionAddress is PC, MemoryWrite is type AND bit 3 and not rejected (R237, R238, R239). -/
def Obligations.OutputsMirrorRegistersAndResult : Prop :=
  ∀ (m : CodeMap) (r : CpuRegs) (p : CpuPins),
    (cpuStep m r p).outputs.memoryAddress = r.a ∧ (cpuStep m r p).outputs.instructionAddress = r.pc ∧
    (cpuStep m r p).outputs.memoryWrite =
      (p.instruction.getLsbD 15 && p.instruction.getLsbD 3 && (m.fnOf (controlField p.instruction)).isSome) ∧
    ∀ f, p.instruction.getLsbD 15 = true → m.fnOf (controlField p.instruction) = some f →
      (cpuStep m r p).outputs.memoryOutput = aluOut f r.d (if p.instruction.getLsbD 11 then p.memoryInput else r.a)

/-- A machine-code line is the word, most significant bit first, and nothing else is a line (R97). -/
def Obligations.TextLineIsTheWord : Prop :=
  (∀ w : Word, parseLine ((List.range 16).map fun k => if w.getLsbD (15 - k) then '1' else '0') = some w) ∧
  (∀ line : List Char, line.length ≠ 16 → parseLine line = none) ∧
  ∀ line : List Char, (∃ c ∈ line, c ≠ '0' ∧ c ≠ '1') → parseLine line = none

/-- The loader places word n of a program at instruction address n and nothing else (R53, R353, R62, log entries 6, 14). The
model's choice: a program is loaded from outside (log entry 14), and a unified memory is written in both lists (log entry 6). -/
def Obligations.LoaderPlacesWordsFromZero : Prop :=
  ∀ (s : State) (program : List Word), s.config.imemWords ≤ 65536 →
    (program.length ≤ s.config.imemWords →
      ∃ t, loadProgram s program = some t ∧
        (∀ n : Nat, t.imem.find n = if n < program.length then program[n]? else s.imem.find n) ∧
        (s.config.unifiedMemory = false → t.dmem = s.dmem) ∧
        (s.config.unifiedMemory = true →
          ∀ x : Word, t.dmem.read x = (program[x.toNat]?).getD (s.dmem.read x)) ∧
        t.a = s.a ∧ t.d = s.d ∧ t.pc = s.pc ∧ t.resetPins = s.resetPins ∧ t.reports = s.reports ∧ t.config = s.config) ∧
    (s.config.imemWords < program.length → loadProgram s program = none)

/-- s.connect(t) succeeds where it may; then s reads as t at every read, and no value set and no edge changes the wiring (R111,
R112, R113, R114, R121, R122, R123, R124, log entry 21). The model's choice: connect is an operation of a circuit under
construction only (log entry 21). -/
def Obligations.ConnectedSignalMirrorsItsSource : Prop :=
  (∀ (c : Circuit) (s t : SignalId), c.signals[s]? = some .pin → t < c.signals.length →
    ¬ Relation.ReflTransGen (Claims.feeds c) s t → ∃ c', c.connect s t = .ok c') ∧
  (∀ (c c' : Circuit) (s t : SignalId), c.connect s t = .ok c' →
    (∀ x : SignalId, x ≠ s → c'.signals[x]? = c.signals[x]?) ∧ c'.clocked = c.clocked ∧ c'.alus = c.alus ∧
    (∀ (u v : SignalId) (c'' : Circuit), c'.connect u v = .ok c'' → c''.signals[s]? = c'.signals[s]?) ∧
    ∀ (m : CodeMap) (r : Running), r.wiring.signals[s]? = c'.signals[s]? → r.value m s = r.value m t) ∧
  ∀ (m : CodeMap) (r r' : Running),
    (∃ p b, r.setValue p b = .ok r') ∨ (∃ b v, r.writeAsInteger b v = .ok r') ∨ r.edge m = some r' → r'.wiring = r.wiring

/-- Each of the six configuration errors is raised by its cause, and then no circuit results (R323, R111, R113, R118, R119,
R123, R147, R163, log entry 13). The model's choice: of AlreadyConnected and CombinationalCycle the first is reported (log entry
13). -/
def Obligations.ConfigurationErrorsAreRaised : Prop :=
  (∀ (c : Circuit) (b b' : Bus), b.length ≠ b'.length →
    c.connectBus b b' = .error .widthMismatch ∧ c.addBusAnd b b' = .error .widthMismatch ∧
    c.addBusOr b b' = .error .widthMismatch ∧ ∀ ctl, c.addBusMux ctl b b' = .error .widthMismatch) ∧
  (∀ (r : Running) (s : SignalId) (dr : Driver) (v : Bool), r.wiring.signals[s]? = some dr → dr ≠ .pin →
    r.setValue s v = .error .writeToDrivenSignal) ∧
  (∀ (c : Circuit) (s t : SignalId) (dr : Driver), c.signals[s]? = some dr → dr ≠ .pin → t < c.signals.length →
    c.connect s t = .error .alreadyConnected) ∧
  (∀ (c : Circuit) (ctl ins : Bus), ins.length ≠ 2 ^ ctl.length → c.addMuxTree ctl ins = .error .muxTreeInputCount) ∧
  (∀ (c : Circuit) (s t : SignalId), c.signals[s]? = some .pin → t < c.signals.length →
    Relation.ReflTransGen (Claims.feeds c) s t → c.connect s t = .error .combinationalCycle) ∧
  ∀ (b : Bus) (i : Nat), b.length ≤ i → busIndex b i = .error .indexOutOfRange

/-- After writeAsInteger(v) the Bus reads v modulo 2^N; on a Bus with a driven lane nothing is written (R121). -/
def Obligations.WriteAsIntegerThenRead : Prop :=
  (∀ (m : CodeMap) (r r' : Running) (b : Bus) (v : Int), b.Nodup → r.writeAsInteger b v = .ok r' →
    r'.readUnsigned m b = some (v % 2 ^ b.length).toNat ∧
    ∀ (i : Nat) (s : SignalId), b[i]? = some s → r'.value m s = some (decide (v / 2 ^ i % 2 = 1))) ∧
  (∀ (r : Running) (b : Bus) (v : Int), (∀ s ∈ b, s < r.wiring.signals.length) →
    (∃ s ∈ b, r.wiring.signals[s]? ≠ some .pin) → r.writeAsInteger b v = .error .writeToDrivenSignal) ∧
  ∀ (r : Running) (b : Bus) (v : Int), (∀ s ∈ b, r.wiring.signals[s]? = some .pin) → ∃ r', r.writeAsInteger b v = .ok r'
end

