-- ==== Sys2Proof/Laws/Circuit.lean ====
section
/-! SUPPORT. What the operations on circuits can do, and the settled value of a Signal: more fuel never changes it, and as much fuel
as there are Signals is enough. -/

namespace Sys2Proof.Machine

/-! ### Settling (R124) -/

theorem allDriven_mono {α : Type} {f g : α → Option Bool} (h : ∀ a v, f a = some v → g a = some v) :
    ∀ (l : List α) (vs : List Bool), allDriven (l.map f) = some vs → allDriven (l.map g) = some vs
  | [], _, hl => hl
  | a :: l, vs, hl => by
    simp only [List.map_cons] at hl ⊢
    cases hf : f a with
    | none => simp [hf, allDriven] at hl
    | some v =>
      rw [hf, allDriven, Option.map_eq_some_iff] at hl
      obtain ⟨rest, h1, h2⟩ := hl
      rw [h a v hf, allDriven, Option.map_eq_some_iff]
      exact ⟨rest, allDriven_mono h l rest h1, h2⟩

variable (m : CodeMap) (r : Running)

/-- A value found with some fuel is found with more. -/
theorem settle_mono : ∀ (n : Nat) (s : SignalId) (v : Bool), settle m r n s = some v → settle m r (n + 1) s = some v := by
  intro n
  induction n with
  | zero => intro s v h; simp [settle] at h
  | succ n ih =>
    intro s v h
    rw [settle] at h
    rw [settle]
    have bus := fun (l : List SignalId) => allDriven_mono (f := settle m r n) (g := settle m r (n + 1)) ih l
    cases hs : r.wiring.signals[s]? with
    | none => simp [hs] at h
    | some dr =>
      rw [hs] at h
      cases dr with
      | pin => exact h
      | lane part i => exact h
      | wire t => exact ih _ _ h
      | notOf x =>
        simp only [Option.map_eq_some_iff] at h ⊢
        obtain ⟨b, h1, h2⟩ := h
        exact ⟨b, ih _ _ h1, h2⟩
      | andOf x y =>
        simp only [Option.bind_eq_bind, Option.bind_eq_some_iff] at h ⊢
        obtain ⟨a, h1, b, h2, h3⟩ := h
        exact ⟨a, ih _ _ h1, b, ih _ _ h2, h3⟩
      | orOf x y =>
        simp only [Option.bind_eq_bind, Option.bind_eq_some_iff] at h ⊢
        obtain ⟨a, h1, b, h2, h3⟩ := h
        exact ⟨a, ih _ _ h1, b, ih _ _ h2, h3⟩
      | muxOf k x y =>
        simp only [Option.bind_eq_bind, Option.bind_eq_some_iff] at h ⊢
        obtain ⟨k, h0, a, h1, b, h2, h3⟩ := h
        exact ⟨k, ih _ _ h0, a, ih _ _ h1, b, ih _ _ h2, h3⟩
      | aluOut part i =>
        simp only [Option.map_eq_some_iff, Option.bind_eq_bind, Option.bind_eq_some_iff] at h ⊢
        obtain ⟨o, ⟨u, h1, x, h2, y, h3, k, h4, h5⟩, h6⟩ := h
        exact ⟨o, ⟨u, h1, x, bus _ _ h2, y, bus _ _ h3, k, bus _ _ h4, h5⟩, h6⟩
      | aluZr part =>
        simp only [Option.map_eq_some_iff, Option.bind_eq_bind, Option.bind_eq_some_iff] at h ⊢
        obtain ⟨o, ⟨u, h1, x, h2, y, h3, k, h4, h5⟩, h6⟩ := h
        exact ⟨o, ⟨u, h1, x, bus _ _ h2, y, bus _ _ h3, k, bus _ _ h4, h5⟩, h6⟩
      | aluNg part =>
        simp only [Option.map_eq_some_iff, Option.bind_eq_bind, Option.bind_eq_some_iff] at h ⊢
        obtain ⟨o, ⟨u, h1, x, h2, y, h3, k, h4, h5⟩, h6⟩ := h
        exact ⟨o, ⟨u, h1, x, bus _ _ h2, y, bus _ _ h3, k, bus _ _ h4, h5⟩, h6⟩

/-- What a Signal settles to depends only on what its inputs settle to. -/
theorem settle_succ_congr {n k : Nat} (h : settle m r n = settle m r k) : settle m r (n + 1) = settle m r (k + 1) := by
  funext s
  rw [settle, settle, h]

/-- A Signal that does not exist has no value. -/
theorem settle_of_not_lt {s : SignalId} (h : r.wiring.signals.length ≤ s) (n : Nat) : settle m r n s = none := by
  cases n with
  | zero => rfl
  | succ n => rw [settle, List.getElem?_eq_none h]

/-- The Signals that have a value with the given fuel. -/
def settledWithin (n : Nat) : Finset SignalId :=
  (Finset.range r.wiring.signals.length).filter fun s => (settle m r n s).isSome

/-- Every unit of fuel settles one more Signal, until none is left to settle. -/
theorem settle_stable_or_card (n : Nat) : settle m r n = settle m r (n + 1) ∨ n ≤ (settledWithin m r n).card := by
  induction n with
  | zero => exact .inr (Nat.zero_le _)
  | succ n ih =>
    rcases ih with h | h
    · exact .inl (settle_succ_congr m r h)
    · by_cases hst : settle m r n = settle m r (n + 1)
      · exact .inl (settle_succ_congr m r hst)
      · right
        obtain ⟨s, hs⟩ := Function.ne_iff.1 hst
        have h0 : settle m r n s = none := by
          cases hv : settle m r n s with
          | none => rfl
          | some v => exact absurd (hv.trans (settle_mono m r n s v hv).symm) hs
        have h1 : (settle m r (n + 1) s).isSome := by
          rw [h0] at hs
          exact Option.isSome_iff_ne_none.2 hs.symm
        have hlt : s < r.wiring.signals.length := by
          by_contra hge
          rw [settle_of_not_lt m r (Nat.le_of_not_lt hge)] at h1
          cases h1
        refine Nat.lt_of_le_of_lt h (Finset.card_lt_card ⟨fun t ht => ?_, fun hsub => ?_⟩)
        · simp only [settledWithin, Finset.mem_filter] at ht ⊢
          obtain ⟨v, hv⟩ := Option.isSome_iff_exists.1 ht.2
          exact ⟨ht.1, by rw [settle_mono m r n t v hv]; rfl⟩
        · have := hsub (show s ∈ settledWithin m r (n + 1) by simp [settledWithin, hlt, h1])
          simp [settledWithin, h0] at this

/-- As much fuel as there are Signals is enough: one more changes nothing. -/
theorem settle_stable : settle m r r.wiring.signals.length = settle m r (r.wiring.signals.length + 1) := by
  rcases settle_stable_or_card m r r.wiring.signals.length with h | h
  · exact h
  · have hall : settledWithin m r r.wiring.signals.length = Finset.range r.wiring.signals.length :=
      Finset.eq_of_subset_of_card_le (Finset.filter_subset _ _) (by simpa using h)
    funext s
    rcases Nat.lt_or_ge s r.wiring.signals.length with hlt | hge
    · have hs : s ∈ settledWithin m r r.wiring.signals.length := hall ▸ Finset.mem_range.2 hlt
      obtain ⟨v, hv⟩ := Option.isSome_iff_exists.1 (Finset.mem_filter.1 hs).2
      rw [hv, settle_mono m r _ s v hv]
    · rw [settle_of_not_lt m r hge, settle_of_not_lt m r hge]

/-! ### Everything connect, setValue and the edge can do -/

variable {m : CodeMap}

theorem connect_eq_ok {c c' : Circuit} {s t : SignalId} :
    c.connect s t = .ok c' ↔
      t < c.signals.length ∧ c.signals[s]? = some .pin ∧ c.reaches c.signals.length s t = false ∧
        c' = { c with signals := c.signals.set s (.wire t) } := by
  unfold Circuit.connect
  constructor
  · intro h
    split at h
    · rename_i ht
      split at h
      · cases h
      · rename_i hp
        split at h
        · cases h
        · rename_i hr
          cases h
          exact ⟨ht, hp, by simpa using hr, rfl⟩
      · cases h
    · cases h
  · rintro ⟨h1, h2, h3, rfl⟩
    simp [h1, h2, h3]

theorem setValue_eq_ok {r r' : Running} {s : SignalId} {v : Bool} :
    r.setValue s v = .ok r' ↔ r.wiring.signals[s]? = some .pin ∧ r' = { r with pins := setPin r.pins s v } := by
  unfold Running.setValue
  constructor
  · intro h
    split at h
    · cases h
    · rename_i hp
      cases h
      exact ⟨hp, rfl⟩
    · cases h
  · rintro ⟨h1, rfl⟩
    simp [h1]

theorem edge_eq_some {r r' : Running} :
    r.edge m = some r' ↔ ∃ contents, r.nextAll m r.wiring.clocked r.contents = some contents ∧ r' = { r with contents := contents } := by
  simp only [Running.edge, Option.bind_eq_bind, Option.bind_eq_some_iff, Option.pure_def, Option.some.injEq, eq_comm (a := r')]

/-! ### The values of pins -/

theorem pinValue_setPin (pins : List (SignalId × Bool)) (s t : SignalId) (v : Bool) :
    pinValue (setPin pins s v) t = if s = t then some v else pinValue pins t := by
  induction pins with
  | nil => simp [setPin, pinValue]
  | cons x rest ih =>
    obtain ⟨k, w⟩ := x
    unfold setPin
    split
    · simp [pinValue]
    · split
      · rename_i h
        subst h
        by_cases ht : s = t <;> simp [pinValue, ht]
      · rename_i h
        by_cases ht : s = t
        · subst ht
          simp [pinValue, Ne.symm h, ih]
        · by_cases hk : k = t <;> simp [pinValue, hk, ht, ih]

theorem mem_setPin {pins : List (SignalId × Bool)} {s : SignalId} {v : Bool} {x : SignalId × Bool} (h : x ∈ setPin pins s v) :
    x = (s, v) ∨ x ∈ pins := by
  induction pins with
  | nil => simpa [setPin] using h
  | cons y rest ih =>
    unfold setPin at h
    split at h
    · simpa using h
    · split at h
      · rcases List.mem_cons.1 h with h | h
        · exact .inl h
        · exact .inr (List.mem_cons_of_mem _ h)
      · rcases List.mem_cons.1 h with h | h
        · exact .inr (h ▸ List.mem_cons_self)
        · exact (ih h).imp id (List.mem_cons_of_mem _)

/-- Setting a pin keeps the list of values in rising order, so that equal values are equal lists. -/
theorem rising_setPin {pins : List (SignalId × Bool)} (s : SignalId) (v : Bool) (h : pins.Pairwise fun x y => x.1 < y.1) :
    (setPin pins s v).Pairwise fun x y => x.1 < y.1 := by
  induction pins with
  | nil => simp [setPin]
  | cons y rest ih =>
    obtain ⟨k, w⟩ := y
    obtain ⟨h1, h2⟩ := List.pairwise_cons.1 h
    unfold setPin
    split
    · rename_i hlt
      refine List.pairwise_cons.2 ⟨fun x hx => ?_, h⟩
      rcases List.mem_cons.1 hx with rfl | hx
      · exact hlt
      · exact Nat.lt_trans hlt (h1 x hx)
    · split
      · rename_i heq
        subst heq
        exact List.pairwise_cons.2 ⟨h1, h2⟩
      · rename_i hnl hne
        refine List.pairwise_cons.2 ⟨fun x hx => ?_, ih h2⟩
        rcases mem_setPin hx with rfl | hx
        · exact Nat.lt_of_le_of_ne (Nat.le_of_not_lt hnl) (Ne.symm hne)
        · exact h1 x hx

/-! ### Which Signals a change reaches (R123) -/

/-- Signal `w` is driven by something that reads Signal `u` in the same cycle. -/
def Circuit.Reads (c : Circuit) (u w : SignalId) : Prop := ∃ dr, c.signals[w]? = some dr ∧ u ∈ c.inputsOf dr

theorem mem_readersFrom (c : Circuit) (u : SignalId) : ∀ (l : List Driver) (n w : Nat),
    w ∈ c.readersFrom u l n ↔ ∃ dr, n ≤ w ∧ l[w - n]? = some dr ∧ u ∈ c.inputsOf dr
  | [], n, w => by simp [Circuit.readersFrom]
  | dr :: rest, n, w => by
    have ih := mem_readersFrom c u rest (n + 1) w
    have hsplit : (∃ d, n ≤ w ∧ (dr :: rest)[w - n]? = some d ∧ u ∈ c.inputsOf d) ↔
        (w = n ∧ u ∈ c.inputsOf dr) ∨ ∃ d, n + 1 ≤ w ∧ rest[w - (n + 1)]? = some d ∧ u ∈ c.inputsOf d := by
      rcases Nat.lt_trichotomy w n with h | h | h
      · simp [show ¬ n ≤ w by omega, show ¬ n + 1 ≤ w by omega, Nat.ne_of_lt h]
      · subst h
        simp
      · have hi : w - n = w - (n + 1) + 1 := by omega
        simp [hi, show n ≤ w by omega, show n + 1 ≤ w by omega, Nat.ne_of_gt h]
    rw [hsplit, ← ih, Circuit.readersFrom]
    split
    · rename_i h
      simp [List.contains_iff_mem.1 h]
    · rename_i h
      have : u ∉ c.inputsOf dr := fun hm => h (List.contains_iff_mem.2 hm)
      simp [this]

theorem reaches_succ (c : Circuit) (n : Nat) (u t : SignalId) :
    c.reaches (n + 1) u t = true ↔ u = t ∨ ∃ w, c.Reads u w ∧ c.reaches n w t = true := by
  simp [Circuit.reaches, mem_readersFrom, Circuit.Reads]

theorem reaches_zero (c : Circuit) (u t : SignalId) : c.reaches 0 u t = true ↔ u = t := by simp [Circuit.reaches]

theorem reaches_mono (c : Circuit) (t : SignalId) : ∀ (n : Nat) (u : SignalId), c.reaches n u t = true → c.reaches (n + 1) u t = true
  | 0, u, h => (reaches_succ ..).2 (.inl ((reaches_zero ..).1 h))
  | n + 1, u, h => by
    rcases (reaches_succ ..).1 h with h | ⟨w, h1, h2⟩
    · exact (reaches_succ ..).2 (.inl h)
    · exact (reaches_succ ..).2 (.inr ⟨w, h1, reaches_mono c t n w h2⟩)

/-- The Signals that exist and reach `t` with the given fuel. -/
def reachersWithin (c : Circuit) (t : SignalId) (n : Nat) : Finset SignalId :=
  (Finset.range c.signals.length).filter fun u => c.reaches n u t

/-- Every unit of fuel finds one more Signal that reaches `t`, until none is left to find. Only the first Signal of a chain can be one
that does not exist. -/
theorem reaches_stable_or_card (c : Circuit) (t : SignalId) (n : Nat) :
    (∀ u, u < c.signals.length → c.reaches n u t = c.reaches (n + 1) u t) ∨ n ≤ (reachersWithin c t n).card := by
  induction n with
  | zero => exact .inr (Nat.zero_le _)
  | succ n ih =>
    have keep : (∀ u, u < c.signals.length → c.reaches n u t = c.reaches (n + 1) u t) →
        ∀ u, u < c.signals.length → c.reaches (n + 1) u t = c.reaches (n + 1 + 1) u t := by
      intro h u _
      rw [Bool.eq_iff_iff, reaches_succ, reaches_succ]
      refine or_congr_right (exists_congr fun w => and_congr_right fun hw => ?_)
      obtain ⟨dr, hdr, -⟩ := hw
      rw [h w (List.getElem?_eq_some_iff.1 hdr).1]
    rcases ih with h | h
    · exact .inl (keep h)
    · by_cases hst : ∀ u, u < c.signals.length → c.reaches n u t = c.reaches (n + 1) u t
      · exact .inl (keep hst)
      · right
        push Not at hst
        obtain ⟨u, hu, hne⟩ := hst
        have h0 : c.reaches n u t = false := by
          by_contra hv
          exact hne (by rw [reaches_mono c t n u (by simpa using hv)]; simpa using hv)
        have h1 : c.reaches (n + 1) u t = true := by
          rw [h0] at hne
          simpa using hne.symm
        refine Nat.lt_of_le_of_lt h (Finset.card_lt_card ⟨fun w hw => ?_, fun hsub => ?_⟩)
        · simp only [reachersWithin, Finset.mem_filter] at hw ⊢
          exact ⟨hw.1, reaches_mono c t n w hw.2⟩
        · have := hsub (show u ∈ reachersWithin c t (n + 1) by simp [reachersWithin, hu, h1])
          simp [reachersWithin, h0] at this

/-- As much fuel as there are Signals finds every chain. -/
theorem reaches_iff (c : Circuit) {s t : SignalId} (hs : s < c.signals.length) :
    c.reaches c.signals.length s t = true ↔ Relation.ReflTransGen c.Reads s t := by
  have stable : ∀ u, u < c.signals.length → c.reaches c.signals.length u t = c.reaches (c.signals.length + 1) u t := by
    rcases reaches_stable_or_card c t c.signals.length with h | h
    · exact h
    · have hall : reachersWithin c t c.signals.length = Finset.range c.signals.length :=
        Finset.eq_of_subset_of_card_le (Finset.filter_subset _ _) (by simpa using h)
      intro u hu
      have hm : u ∈ reachersWithin c t c.signals.length := hall ▸ Finset.mem_range.2 hu
      have hr := (Finset.mem_filter.1 hm).2
      rw [hr, reaches_mono c t _ u hr]
  constructor
  · have : ∀ (n : Nat) (u : SignalId), c.reaches n u t = true → Relation.ReflTransGen c.Reads u t := by
      intro n
      induction n with
      | zero => exact fun u h => (reaches_zero ..).1 h ▸ .refl
      | succ n ih =>
        intro u h
        rcases (reaches_succ ..).1 h with h | ⟨w, h1, h2⟩
        · exact h ▸ .refl
        · exact .head h1 (ih w h2)
    exact this _ s
  · intro h
    induction h using Relation.ReflTransGen.head_induction_on with
    | refl => rw [stable t hs]; exact (reaches_succ ..).2 (.inl rfl)
    | head hw _ ih =>
      obtain ⟨dr, hdr, hin⟩ := hw
      rw [stable _ hs]
      exact (reaches_succ ..).2 (.inr ⟨_, ⟨dr, hdr, hin⟩, ih (List.getElem?_eq_some_iff.1 hdr).1⟩)

end Sys2Proof.Machine
end

