-- ==== Sys2Proof/Laws/Decode.lean ====
section
/-! SUPPORT. The laws of the decoder and encoder: the fields of an assembled word, the field codes, the code map, and what the decoder
can answer. -/

namespace Sys2Proof

/-! ### The field codes -/

@[simp] theorem YSource.ofBit_bit (y : YSource) : YSource.ofBit y.bit = y := by cases y <;> rfl

@[simp] theorem YSource.bit_ofBit (b : Bool) : (YSource.ofBit b).bit = b := by cases b <;> rfl

@[simp] theorem Dest.ofBits_bits (dst : Dest) : Dest.ofBits dst.bits = dst := by
  obtain ⟨a, d, m⟩ := dst
  revert a d m
  decide

@[simp] theorem Dest.bits_ofBits (b : BitVec 3) : (Dest.ofBits b).bits = b := by
  revert b
  decide

@[simp] theorem Jump.ofCode_code (j : Jump) : Jump.ofCode j.code = j := by cases j <;> rfl

@[simp] theorem Jump.code_ofCode (b : BitVec 3) : (Jump.ofCode b).code = b := by
  revert b
  decide

/-! ### The fields of a compute word and of an addressing word -/

section
variable (a : Bool) (c : BitVec 5) (d j : BitVec 3) (v : BitVec 15)

/-- Bit k of a compute word, field by field (R83). -/
theorem getLsbD_computeWord (k : Nat) :
    (computeWord a c d j).getLsbD k =
      if k < 3 then j.getLsbD k
      else if k < 6 then d.getLsbD (k - 3)
      else if k < 11 then c.getLsbD (k - 6)
      else if k < 12 then a
      else decide (k = 15) := by
  simp only [computeWord, BitVec.getLsbD_append]
  by_cases h1 : k < 3
  · simp [h1]
  by_cases h2 : k < 6
  · simp [h1, h2, show k - 3 < 3 by omega]
  by_cases h3 : k < 11
  · simp [h1, h2, h3, show ¬ k - 3 < 3 by omega, show k - 3 - 3 = k - 6 by omega, show k - 6 < 5 by omega]
  by_cases h4 : k < 12
  · obtain rfl : k = 11 := by omega
    simp
  by_cases h5 : k < 16
  · obtain rfl | rfl | rfl | rfl : k = 12 ∨ k = 13 ∨ k = 14 ∨ k = 15 := by omega
    all_goals simp
  · simp [h1, h2, h3, h4, show ¬ k - 3 < 3 by omega, show ¬ k - 3 - 3 < 5 by omega, show k - 3 - 3 - 5 ≠ 0 by omega,
      show ¬ k - 3 - 3 - 5 - 1 < 3 by omega, show k ≠ 15 by omega]
    omega

@[simp] theorem typeBit_computeWord : typeBit (computeWord a c d j) = true := by
  simp only [typeBit, getLsbD_computeWord]
  rfl

@[simp] theorem aBit_computeWord : aBit (computeWord a c d j) = a := by
  simp only [aBit, getLsbD_computeWord]
  rfl

@[simp] theorem controlField_computeWord : controlField (computeWord a c d j) = c := by
  apply BitVec.eq_of_getLsbD_eq
  intro i hi
  simp only [controlField, BitVec.getLsbD_extractLsb', getLsbD_computeWord, hi, decide_true, Bool.true_and,
    show ¬ 6 + i < 3 by omega, show ¬ 6 + i < 6 by omega, show 6 + i < 11 by omega, if_false, if_true, Nat.add_sub_cancel_left]

@[simp] theorem destField_computeWord : destField (computeWord a c d j) = d := by
  apply BitVec.eq_of_getLsbD_eq
  intro i hi
  simp only [destField, BitVec.getLsbD_extractLsb', getLsbD_computeWord, hi, decide_true, Bool.true_and,
    show ¬ 3 + i < 3 by omega, show 3 + i < 6 by omega, if_false, if_true, Nat.add_sub_cancel_left]

@[simp] theorem jumpField_computeWord : jumpField (computeWord a c d j) = j := by
  apply BitVec.eq_of_getLsbD_eq
  intro i hi
  simp only [jumpField, BitVec.getLsbD_extractLsb', getLsbD_computeWord, hi, decide_true, Bool.true_and,
    if_true, Nat.zero_add]

@[simp] theorem spareField_computeWord : spareField (computeWord a c d j) = 0 := by
  apply BitVec.eq_of_getLsbD_eq
  intro i hi
  simp [spareField, BitVec.getLsbD_extractLsb', getLsbD_computeWord, show ¬ 12 + i < 3 by omega, show ¬ 12 + i < 6 by omega,
    show ¬ 12 + i < 11 by omega, show 12 + i ≠ 15 by omega]

@[simp] theorem typeBit_addressingWord : typeBit (addressingWord v) = false := by
  simp only [typeBit, addressingWord, BitVec.getLsbD_append]
  rfl

@[simp] theorem literalField_addressingWord : literalField (addressingWord v) = v := by
  apply BitVec.eq_of_getLsbD_eq
  intro i hi
  rw [literalField, BitVec.getLsbD_extractLsb', addressingWord, BitVec.getLsbD_append]
  simp [hi]

end

/-- A word of type 0 is its literal, zero-extended (R84). -/
theorem setWidth_literalField {I : Word} (h : typeBit I = false) : (literalField I).setWidth 16 = I := by
  apply BitVec.eq_of_getLsbD_eq
  intro i hi
  rcases Nat.lt_or_ge i 15 with hlt | hge
  · simp [literalField, hlt, hi]
  · obtain rfl : i = 15 := by omega
    simpa [literalField, BitVec.getLsbD_extractLsb', typeBit] using h.symm

/-- A word of type 1 with spare bits 000 is the compute word of its fields. -/
theorem computeWord_fields {I : Word} (h : typeBit I = true) (hs : spareField I = 0) :
    computeWord (aBit I) (controlField I) (destField I) (jumpField I) = I := by
  apply BitVec.eq_of_getLsbD_eq
  intro i hi
  rw [getLsbD_computeWord]
  have hsp : ∀ k, k < 3 → I.getLsbD (12 + k) = false := by
    intro k hk
    have := congrArg (fun x : BitVec 3 => x.getLsbD k) hs
    simpa [spareField, BitVec.getLsbD_extractLsb', hk] using this
  have h0 := hsp 0 (by omega)
  have h1 := hsp 1 (by omega)
  have h2 := hsp 2 (by omega)
  simp only [typeBit] at h
  have hcases : i = 0 ∨ i = 1 ∨ i = 2 ∨ i = 3 ∨ i = 4 ∨ i = 5 ∨ i = 6 ∨ i = 7 ∨ i = 8 ∨ i = 9 ∨ i = 10 ∨ i = 11 ∨ i = 12 ∨
      i = 13 ∨ i = 14 ∨ i = 15 := by omega
  rcases hcases with rfl | rfl | rfl | rfl | rfl | rfl | rfl | rfl | rfl | rfl | rfl | rfl | rfl | rfl | rfl | rfl <;>
    simp_all [aBit, controlField, destField, jumpField]

/-! ### The code map -/

theorem CodeMap.fnOf_of_codeOf {m : CodeMap} (hm : m.Functional) {f : AluFn} {c : BitVec 5} (h : m.codeOf f = some c) :
    m.fnOf c = some f := by
  induction m with
  | nil => simp [CodeMap.codeOf] at h
  | cons r rest ih =>
    simp only [CodeMap.Functional, List.map_cons, List.nodup_cons] at hm
    simp only [CodeMap.codeOf] at h
    simp only [CodeMap.fnOf]
    split at h
    · rename_i hr
      simp_all
    · have hrest := ih hm.2 h
      have hmem : ∀ (l : CodeMap), CodeMap.fnOf l c = some f → c ∈ l.map CodeRow.code := by
        intro l
        induction l with
        | nil => simp [CodeMap.fnOf]
        | cons x xs ihx =>
          simp only [CodeMap.fnOf, List.map_cons, List.mem_cons]
          split
          · rename_i hx
            intro _
            exact .inl hx.symm
          · intro hx
            exact .inr (ihx hx)
      have : r.code ≠ c := fun hc => hm.1 (hc ▸ hmem rest hrest)
      simp [this, hrest]

theorem aluCodeMap_functional : aluCodeMap.Functional := by decide

/-- The default map gives every function a code. -/
theorem aluCodeMap_codeOf (f : AluFn) : ∃ c, aluCodeMap.codeOf f = some c := by
  cases f <;> exact ⟨_, rfl⟩

/-- Under the default map the functions are exactly those of the codes 0 to 17 (R85). -/
theorem aluCodeMap_fnOf_isSome (c : BitVec 5) : (aluCodeMap.fnOf c).isSome = decide (c.toNat < 18) := by
  revert c
  decide

/-- A code and the function the default map gives it belong together both ways. -/
theorem aluCodeMap_codeOf_fnOf {c : BitVec 5} {f : AluFn} (h : aluCodeMap.fnOf c = some f) : aluCodeMap.codeOf f = some c := by
  revert c f
  have : ∀ c : BitVec 5, ((aluCodeMap.fnOf c).bind aluCodeMap.codeOf = some c) ∨ aluCodeMap.fnOf c = none := by decide
  intro c f h
  simpa [h] using this c

/-! ### The reserved rows -/

/-- Two words are equal when all sixteen bits are. -/
theorem word_eq_iff (v w : Word) : v = w ↔ ∀ i : Fin 16, v.getLsbD i = w.getLsbD i :=
  ⟨fun h _ => h ▸ rfl, fun h => BitVec.eq_of_getLsbD_eq fun i hi => h ⟨i, hi⟩⟩

/-- Two control codes are equal when all five bits are. -/
theorem code_eq_iff (v w : BitVec 5) : v = w ↔ ∀ i : Fin 5, v.getLsbD i = w.getLsbD i :=
  ⟨fun h _ => h ▸ rfl, fun h => BitVec.eq_of_getLsbD_eq fun i hi => h ⟨i, hi⟩⟩

theorem inReserved18to19_iff (w : Word) :
    inReserved18to19 w = true ↔ typeBit w = true ∧ 18 ≤ (controlField w).toNat ∧ (controlField w).toNat < 20 := by
  have hc : ∀ c : BitVec 5, c &&& 0b11110#5 = 0b10010#5 ↔ 18 ≤ c.toNat ∧ c.toNat < 20 := by decide
  rw [← hc]
  simp [inReserved18to19, typeBit, controlField, word_eq_iff, code_eq_iff, Fin.forall_fin_succ]
  tauto

theorem inReserved20to23_iff (w : Word) :
    inReserved20to23 w = true ↔ typeBit w = true ∧ 20 ≤ (controlField w).toNat ∧ (controlField w).toNat < 24 := by
  have hc : ∀ c : BitVec 5, c &&& 0b11100#5 = 0b10100#5 ↔ 20 ≤ c.toNat ∧ c.toNat < 24 := by decide
  rw [← hc]
  simp [inReserved20to23, typeBit, controlField, word_eq_iff, code_eq_iff, Fin.forall_fin_succ]
  tauto

theorem inReserved24to31_iff (w : Word) :
    inReserved24to31 w = true ↔ typeBit w = true ∧ 24 ≤ (controlField w).toNat := by
  have hc : ∀ c : BitVec 5, c &&& 0b11000#5 = 0b11000#5 ↔ 24 ≤ c.toNat := by decide
  rw [← hc]
  simp [inReserved24to31, typeBit, controlField, word_eq_iff, code_eq_iff, Fin.forall_fin_succ]
  tauto

/-! ### What the decoder answers (R92) -/

@[simp] theorem encodeWith_compute (m : CodeMap) (f : AluFn) (y : YSource) (dst : Dest) (j : Jump) :
    encodeWith m (Instr.compute f y dst j) = encodeCompute m f y dst j := by
  cases f <;> rfl

theorem decodeWith_computeWord {m : CodeMap} {c : BitVec 5} {f : AluFn} (h : m.fnOf c = some f) (y : YSource) (dst : Dest)
    (j : Jump) : decodeWith m (computeWord y.bit c dst.bits j.code) = .ok (Instr.compute f y dst j) := by
  simp [decodeWith, h]

theorem decodeWith_addressing {m : CodeMap} {I : Word} (h : typeBit I = false) :
    decodeWith m I = .ok (.addressing (literalField I)) := by
  simp [decodeWith, h]

theorem decodeWith_compute {m : CodeMap} {I : Word} {f : AluFn} (ht : typeBit I = true) (hf : m.fnOf (controlField I) = some f) :
    decodeWith m I =
      .ok (Instr.compute f (YSource.ofBit (aBit I)) (Dest.ofBits (destField I)) (Jump.ofCode (jumpField I))) := by
  simp [decodeWith, ht, hf]

theorem decodeWith_reserved {m : CodeMap} {I : Word} (ht : typeBit I = true) (hf : m.fnOf (controlField I) = none) :
    decodeWith m I = decodeReserved I := by
  simp [decodeWith, ht, hf]

/-- Everything `decodeReserved` can answer. -/
theorem decodeReserved_cases (I : Word) :
    decodeReserved I = .ok (.reserved18to19 I) ∨ decodeReserved I = .ok (.reserved20to23 I) ∨
      decodeReserved I = .ok (.reserved24to31 I) ∨ decodeReserved I = .error (.controlWithoutFunction I) := by
  unfold decodeReserved
  split
  · exact .inl rfl
  split
  · exact .inr (.inl rfl)
  split
  · exact .inr (.inr (.inl rfl))
  · exact .inr (.inr (.inr rfl))

end Sys2Proof
end

