-- ==== Sys2Proof/Laws/Memory.lean ====
section
/-! SUPPORT. The laws of memory: a read after a write, and the canonical form that every operation keeps. -/

namespace Sys2Proof.Machine

namespace Memory

/-! ### What is listed after put and remove -/

theorem find_put (m : Memory) (a b : Nat) (v : Word) :
    Memory.find (Memory.put m a v) b = if a = b then some v else Memory.find m b := by
  induction m with
  | nil => simp [put, find]
  | cons c rest ih =>
    obtain ⟨k, w⟩ := c
    by_cases h1 : a < k
    · simp [put, find, h1]
    · by_cases h2 : a = k
      · subst h2
        simp only [put, find, Nat.lt_irrefl, if_false, if_true]
        split <;> rfl
      · simp only [put, find, h1, h2, if_false, ih]
        by_cases h3 : k = b
        · simp [h3, show a ≠ b by omega]
        · simp [h3]

theorem find_remove (m : Memory) (a b : Nat) :
    Memory.find (Memory.remove m a) b = if a = b then none else Memory.find m b := by
  induction m with
  | nil => simp [remove, find]
  | cons c rest ih =>
    obtain ⟨k, w⟩ := c
    by_cases h1 : k = a
    · subst h1
      simp only [remove, find, if_true, ih]
      split <;> rfl
    · simp only [remove, find, h1, if_false, ih]
      by_cases h2 : k = b
      · simp [h2, show a ≠ b by omega]
      · simp [h2]

/-- What data memory holds after a write, at every address. -/
theorem find_write (m : Memory) (a v : Word) (b : Nat) :
    (Memory.find (Memory.write m a v) b).getD unlistedData =
      if a.toNat = b then v else (Memory.find m b).getD unlistedData := by
  unfold Memory.write
  by_cases hv : v = unlistedData
  · simp only [hv, if_true, find_remove]
    split <;> rfl
  · simp only [hv, if_false, find_put]
    split <;> rfl

theorem read_write (m : Memory) (a v b : Word) :
    Memory.read (Memory.write m a v) b = if a = b then v else Memory.read m b := by
  simp [Memory.read, find_write, BitVec.toNat_inj]

@[simp] theorem read_write_same (m : Memory) (a v : Word) : Memory.read (Memory.write m a v) a = v := by
  simp [read_write]

theorem read_write_other (m : Memory) {a b : Word} (v : Word) (h : a ≠ b) :
    Memory.read (Memory.write m a v) b = Memory.read m b := by
  simp [read_write, h]

/-! ### The canonical form -/

theorem mem_put {m : Memory} {a : Nat} {v : Word} {c : Nat × Word} (h : c ∈ Memory.put m a v) : c = (a, v) ∨ c ∈ m := by
  induction m with
  | nil => simpa [put] using h
  | cons x rest ih =>
    obtain ⟨k, w⟩ := x
    simp only [put] at h
    split at h
    · simpa using h
    · split at h
      · rcases List.mem_cons.1 h with h | h
        · exact .inl h
        · exact .inr (List.mem_cons_of_mem _ h)
      · rcases List.mem_cons.1 h with h | h
        · exact .inr (h ▸ List.mem_cons_self)
        · exact (ih h).imp id (List.mem_cons_of_mem _)

theorem mem_remove {m : Memory} {a : Nat} {c : Nat × Word} (h : c ∈ Memory.remove m a) : c ∈ m := by
  induction m with
  | nil => simp [remove] at h
  | cons x rest ih =>
    obtain ⟨k, w⟩ := x
    simp only [remove] at h
    split at h
    · exact List.mem_cons_of_mem _ (ih h)
    · rcases List.mem_cons.1 h with h | h
      · exact h ▸ List.mem_cons_self
      · exact List.mem_cons_of_mem _ (ih h)

theorem rising_put {m : Memory} (a : Nat) (v : Word) (h : m.Pairwise (fun x y => x.1 < y.1)) :
    (Memory.put m a v).Pairwise (fun x y => x.1 < y.1) := by
  induction m with
  | nil => simp [put]
  | cons x rest ih =>
    obtain ⟨k, w⟩ := x
    have hk := (List.pairwise_cons.1 h).1
    have hr := List.Pairwise.of_cons h
    simp only [put]
    split
    · rename_i hlt
      refine List.pairwise_cons.2 ⟨fun y hy => ?_, h⟩
      rcases List.mem_cons.1 hy with rfl | hy
      · exact hlt
      · exact Nat.lt_trans hlt (hk y hy)
    · split
      · rename_i _ heq
        subst heq
        exact List.pairwise_cons.2 ⟨fun y hy => hk y hy, hr⟩
      · rename_i hge hne
        refine List.pairwise_cons.2 ⟨fun y hy => ?_, ih hr⟩
        rcases mem_put hy with rfl | hy
        · show k < a
          omega
        · exact hk y hy

theorem rising_remove {m : Memory} (a : Nat) (h : m.Pairwise (fun x y => x.1 < y.1)) :
    (Memory.remove m a).Pairwise (fun x y => x.1 < y.1) := by
  induction m with
  | nil => simp [remove]
  | cons x rest ih =>
    obtain ⟨k, w⟩ := x
    have hr := List.Pairwise.of_cons h
    simp only [remove]
    split
    · exact ih hr
    · exact List.pairwise_cons.2 ⟨fun y hy => List.rel_of_pairwise_cons h (mem_remove hy), ih hr⟩

theorem put_wfCode {size : Nat} {m : Memory} {a : Nat} (v : Word) (ha : a < size) (h : WfCode size m) :
    WfCode size (Memory.put m a v) := by
  refine ⟨rising_put a v h.1, fun c hc => ?_⟩
  rcases mem_put hc with rfl | hc
  · exact ha
  · exact h.2 c hc

theorem write_wf {size : Nat} {m : Memory} {a : Word} (v : Word) (ha : a.toNat < size) (h : Wf size m) :
    Wf size (Memory.write m a v) := by
  unfold Memory.write
  split
  · exact ⟨⟨rising_remove _ h.1.1, fun c hc => h.1.2 c (mem_remove hc)⟩, fun c hc => h.2 c (mem_remove hc)⟩
  · rename_i hv
    refine ⟨put_wfCode v ha h.1, fun c hc => ?_⟩
    rcases mem_put hc with rfl | hc
    · exact hv
    · exact h.2 c hc

theorem nil_wf (size : Nat) : Wf size [] := by simp [Wf, WfCode]

/-- A listed cell of a memory whose addresses rise is what `find` answers there. -/
theorem find_of_mem {m : Memory} (h : m.Pairwise (fun x y => x.1 < y.1)) {c : Nat × Word} (hc : c ∈ m) :
    Memory.find m c.1 = some c.2 := by
  induction m with
  | nil => simp at hc
  | cons x rest ih =>
    rcases List.mem_cons.1 hc with rfl | hc
    · simp [find]
    · have hlt : x.1 < c.1 := List.rel_of_pairwise_cons h hc
      simp [find, show x.1 ≠ c.1 by omega, ih (List.Pairwise.of_cons h) hc]

end Memory

end Sys2Proof.Machine
end

