-- ==== Sys2Proof/Laws/State.lean ====
section
/-! SUPPORT. One lemma per field per update of State, so that no proof unfolds a record update. -/

namespace Sys2Proof.Machine

variable (s : State) (e : EdgeInputs) (x v I : Word) (c : CpuCycle) (nbits w : Nat)

/-! ### storeCell -/

@[simp] theorem storeCell_a : (storeCell s x v).a = s.a := rfl
@[simp] theorem storeCell_d : (storeCell s x v).d = s.d := rfl
@[simp] theorem storeCell_pc : (storeCell s x v).pc = s.pc := rfl
@[simp] theorem storeCell_dmem : (storeCell s x v).dmem = s.dmem.write x v := rfl
@[simp] theorem storeCell_imem : (storeCell s x v).imem = if s.config.unifiedMemory then s.imem.put x.toNat v else s.imem := rfl
@[simp] theorem storeCell_resetPins : (storeCell s x v).resetPins = s.resetPins := rfl
@[simp] theorem storeCell_reports : (storeCell s x v).reports = s.reports := rfl
@[simp] theorem storeCell_config : (storeCell s x v).config = s.config := rfl

/-! ### clockEdge -/

@[simp] theorem clockEdge_a : (clockEdge e s).a = registerNext s.a e.aInput e.aLoad := rfl
@[simp] theorem clockEdge_d : (clockEdge e s).d = registerNext s.d e.dInput e.dLoad := rfl
@[simp] theorem clockEdge_pc : (clockEdge e s).pc = counterNext s.pc s.a e.pcLoad s.resetPin := rfl
@[simp] theorem clockEdge_dmem : (clockEdge e s).dmem = if e.write then s.dmem.write s.a e.store else s.dmem := by unfold clockEdge; split <;> rfl
@[simp] theorem clockEdge_imem : (clockEdge e s).imem = if e.write && s.config.unifiedMemory then s.imem.put s.a.toNat e.store else s.imem := by
  unfold clockEdge
  cases e.write <;> rfl
@[simp] theorem clockEdge_resetPins : (clockEdge e s).resetPins = s.resetPins.tail := rfl
@[simp] theorem clockEdge_reports : (clockEdge e s).reports = s.reports := by unfold clockEdge; split <;> rfl
@[simp] theorem clockEdge_config : (clockEdge e s).config = s.config := by unfold clockEdge; split <;> rfl

/-! ### rejectCycle -/

@[simp] theorem rejectCycle_a : (rejectCycle I s).a = s.a := rfl
@[simp] theorem rejectCycle_d : (rejectCycle I s).d = s.d := rfl
@[simp] theorem rejectCycle_pc : (rejectCycle I s).pc = if s.resetPin then 0#16 else s.pc := rfl
@[simp] theorem rejectCycle_dmem : (rejectCycle I s).dmem = s.dmem := rfl
@[simp] theorem rejectCycle_imem : (rejectCycle I s).imem = s.imem := rfl
@[simp] theorem rejectCycle_resetPins : (rejectCycle I s).resetPins = s.resetPins.tail := rfl
@[simp] theorem rejectCycle_reports : (rejectCycle I s).reports = ⟨I, s.pc⟩ :: s.reports := rfl
@[simp] theorem rejectCycle_config : (rejectCycle I s).config = s.config := rfl

/-! ### loadWord -/

@[simp] theorem loadWord_a : (loadWord s x I).a = s.a := rfl
@[simp] theorem loadWord_d : (loadWord s x I).d = s.d := rfl
@[simp] theorem loadWord_pc : (loadWord s x I).pc = s.pc := rfl
@[simp] theorem loadWord_dmem : (loadWord s x I).dmem = if s.config.unifiedMemory then s.dmem.write x I else s.dmem := rfl
@[simp] theorem loadWord_imem : (loadWord s x I).imem = s.imem.put x.toNat I := rfl
@[simp] theorem loadWord_resetPins : (loadWord s x I).resetPins = s.resetPins := rfl
@[simp] theorem loadWord_reports : (loadWord s x I).reports = s.reports := rfl
@[simp] theorem loadWord_config : (loadWord s x I).config = s.config := rfl

/-! ### afterCpu -/

@[simp] theorem afterCpu_a : (s.afterCpu c).a = c.next.a := rfl
@[simp] theorem afterCpu_d : (s.afterCpu c).d = c.next.d := rfl
@[simp] theorem afterCpu_pc : (s.afterCpu c).pc = c.next.pc := rfl
@[simp] theorem afterCpu_dmem : (s.afterCpu c).dmem = if c.outputs.memoryWrite then s.dmem.write c.outputs.memoryAddress c.outputs.memoryOutput else s.dmem := by unfold State.afterCpu; split <;> rfl
@[simp] theorem afterCpu_imem : (s.afterCpu c).imem = if c.outputs.memoryWrite && s.config.unifiedMemory then s.imem.put c.outputs.memoryAddress.toNat c.outputs.memoryOutput
      else s.imem := by
  unfold State.afterCpu
  cases c.outputs.memoryWrite <;> rfl
@[simp] theorem afterCpu_resetPins : (s.afterCpu c).resetPins = s.resetPins.tail := rfl
@[simp] theorem afterCpu_reports : (s.afterCpu c).reports = match c.report with
      | some r => r :: s.reports
      | none => s.reports := by unfold State.afterCpu; split <;> rfl
@[simp] theorem afterCpu_config : (s.afterCpu c).config = s.config := by unfold State.afterCpu; split <;> rfl

/-! ### the state after reset -/

@[simp] theorem reset_a : State.reset.a = 0#16 := rfl
@[simp] theorem reset_d : State.reset.d = 0#16 := rfl
@[simp] theorem reset_pc : State.reset.pc = 0#16 := rfl
@[simp] theorem reset_dmem : State.reset.dmem = [] := rfl
@[simp] theorem reset_imem : State.reset.imem = [] := rfl
@[simp] theorem reset_resetPins : State.reset.resetPins = [] := rfl
@[simp] theorem reset_reports : State.reset.reports = [] := rfl
@[simp] theorem reset_config : State.reset.config = defaultConfig := rfl

end Sys2Proof.Machine
end

