-- ==== Sys2Proof/Laws/Ops.lean ====
section
/-! SUPPORT. What each shared operation can do, said once: the operands, the compute cycle, the arms of exec, the fetch and the step. -/

namespace Sys2Proof.Machine

/-! ### Pins and clocked components -/

@[simp] theorem resetPin_cons (s : State) (b : Bool) (l : List Bool) : ({ s with resetPins := b :: l } : State).resetPin = b := rfl

theorem registerNext_eq (current input : Word) (load : Bool) : registerNext current input load = if load then input else current := rfl

theorem counterNext_eq (current input : Word) (load reset : Bool) :
    counterNext current input load reset = if reset then 0#16 else if load then input else current + 1#16 := rfl

/-! ### Operands -/

/-- Whether a compute instruction with this function and `a` bit takes operand Y from the data cell at A. -/
def usesCell (f : AluFn) (y : YSource) : Bool :=
  match y with
  | .regA => false
  | .mem => readsY f

/-- The word operand Y holds when it can be read at all. -/
def yWord (y : YSource) (s : State) : Word :=
  match y with
  | .regA => s.a
  | .mem => s.dmem.read s.a

/-- Operand Y, whole: its word, or the fault of an absent cell. -/
theorem operandY_eq (f : AluFn) (y : YSource) (s : State) :
    operandY f y s = if usesCell f y && !s.dataCellExists s.a then .error (.absentDataCell s.a) else .ok (yWord y s) := by
  cases y with
  | regA => rfl
  | mem =>
    simp only [operandY, usesCell, yWord, readCell, memoryInput]
    rcases Bool.eq_false_or_eq_true (readsY f) with h1 | h1 <;>
      rcases Bool.eq_false_or_eq_true (s.dataCellExists s.a) with h2 | h2 <;> simp [h1, h2]

/-- A function that does not read Y has the same result whatever Y is (R91). -/
theorem aluOut_of_not_readsY {f : AluFn} (h : readsY f = false) (X Y Y' : Word) : aluOut f X Y = aluOut f X Y' := by
  cases f <;> first | rfl | simp [readsY] at h

/-! ### The compute cycle -/

/-- The data cell at A is there if the instruction reads or writes it. -/
def CellAvailable (f : AluFn) (y : YSource) (dst : Dest) (s : State) : Prop :=
  (usesCell f y = true ∨ dst.toM = true) → s.a.toNat < s.config.dmemWords

theorem computeCycle_of_available {f : AluFn} {y : YSource} {dst : Dest} {s : State} (j : Jump) (h : CellAvailable f y dst s) :
    computeCycle f y dst j s = .next (clockEdge (computeEdge (aluOut f s.d (yWord y s)) dst j) s) := by
  have hu : (usesCell f y && !s.dataCellExists s.a) = false := by
    cases hc : usesCell f y with
    | false => rfl
    | true => simp [State.dataCellExists, h (.inl hc)]
  have hm : (dst.toM && !s.dataCellExists s.a) = false := by
    cases hc : dst.toM with
    | false => rfl
    | true => simp [State.dataCellExists, h (.inr hc)]
  simp [computeCycle, operandY_eq, hu, hm, operandX]

theorem computeCycle_of_not_available {f : AluFn} {y : YSource} {dst : Dest} {s : State} (j : Jump)
    (h : ¬ CellAvailable f y dst s) : computeCycle f y dst j s = .fault (.absentDataCell s.a) := by
  unfold CellAvailable at h
  push Not at h
  obtain ⟨hor, hlt⟩ := h
  have hd : s.dataCellExists s.a = false := by simp [State.dataCellExists, hlt]
  rcases hor with hu | hm
  · simp [computeCycle, operandY_eq, hu, hd]
  · simp only [computeCycle, operandY_eq, hd, hm]
    cases usesCell f y <;> rfl

/-- Everything a compute cycle can do. -/
theorem computeCycle_next {f : AluFn} {y : YSource} {dst : Dest} {j : Jump} {s t : State}
    (h : computeCycle f y dst j s = .next t) :
    CellAvailable f y dst s ∧ t = clockEdge (computeEdge (aluOut f s.d (yWord y s)) dst j) s := by
  by_cases ha : CellAvailable f y dst s
  · rw [computeCycle_of_available j ha] at h
    injection h with h
    exact ⟨ha, h.symm⟩
  · rw [computeCycle_of_not_available j ha] at h
    cases h

/-! ### The arms of exec -/

@[simp] theorem exec_compute (f : AluFn) (y : YSource) (dst : Dest) (j : Jump) (s : State) :
    exec (Instr.compute f y dst j) s = computeCycle f y dst j s := by
  cases f <;> rfl

@[simp] theorem exec_addressing (v : BitVec 15) (s : State) : exec (.addressing v) s = execAddressing v s := rfl

theorem exec_reserved18to19 (w : Word) (s : State) : exec (.reserved18to19 w) s = .next (rejectCycle w s) := rfl

theorem exec_reserved20to23 (w : Word) (s : State) : exec (.reserved20to23 w) s = .next (rejectCycle w s) := rfl

theorem exec_reserved24to31 (w : Word) (s : State) : exec (.reserved24to31 w) s = .next (rejectCycle w s) := rfl

/-- The state after an addressing instruction. -/
theorem execAddressing_eq (v : BitVec 15) (s : State) :
    execAddressing v s =
      .next { s with a := v.setWidth 16, pc := if s.resetPin then 0#16 else s.pc + 1#16, resetPins := s.resetPins.tail } := by
  simp [execAddressing, clockEdge, registerNext_eq, counterNext_eq]

/-! ### The fetch and the step -/

theorem fetch_word_iff (s : State) (I : Word) :
    fetch s = .word I ↔ s.pc.toNat < s.config.imemWords ∧ s.imem.find s.pc.toNat = some I := by
  unfold fetch
  split
  · rename_i h
    cases hf : s.imem.find s.pc.toNat <;> simp [h]
  · rename_i h
    simp [h]

theorem step_of_word {s : State} {I : Word} (h : fetch s = .word I) :
    step s = match decodeWith s.config.codeMap I with
      | .ok i => exec i s
      | .error _ => .next (rejectCycle I s) := by
  cases hd : decodeWith s.config.codeMap I <;> simp only [step, h, hd]

/-- A step on an addressing word. -/
theorem step_addressing {s : State} {I : Word} (h : fetch s = .word I) (ht : typeBit I = false) :
    step s = execAddressing (literalField I) s := by
  simp [step_of_word h, decodeWith_addressing ht]

/-- A step on a compute word whose control code has a function. -/
theorem step_compute {s : State} {I : Word} {f : AluFn} (h : fetch s = .word I) (ht : typeBit I = true)
    (hf : s.config.codeMap.fnOf (controlField I) = some f) :
    step s = computeCycle f (YSource.ofBit (aBit I)) (Dest.ofBits (destField I)) (Jump.ofCode (jumpField I)) s := by
  simp [step_of_word h, decodeWith_compute ht hf]

/-- A step on a compute word whose control code has no function: whichever reserved row the word is in, the cycle is rejected. -/
theorem step_rejected {s : State} {I : Word} (h : fetch s = .word I) (ht : typeBit I = true)
    (hf : s.config.codeMap.fnOf (controlField I) = none) : step s = .next (rejectCycle I s) := by
  rw [step_of_word h, decodeWith_reserved ht hf]
  rcases decodeReserved_cases I with hr | hr | hr | hr <;> rw [hr] <;> rfl

/-- Everything a step can do. -/
theorem step_cases {s t : State} (h : step s = .next t) :
    ∃ I, fetch s = .word I ∧
      ((typeBit I = false ∧ execAddressing (literalField I) s = .next t) ∨
       (∃ f, typeBit I = true ∧ s.config.codeMap.fnOf (controlField I) = some f ∧
          computeCycle f (YSource.ofBit (aBit I)) (Dest.ofBits (destField I)) (Jump.ofCode (jumpField I)) s = .next t) ∨
       (typeBit I = true ∧ s.config.codeMap.fnOf (controlField I) = none ∧ t = rejectCycle I s)) := by
  cases hw : fetch s with
  | absent => simp [step, hw] at h
  | unloaded => simp [step, hw] at h
  | word I =>
    refine ⟨I, rfl, ?_⟩
    cases ht : typeBit I with
    | false =>
      rw [step_addressing hw ht] at h
      exact .inl ⟨rfl, h⟩
    | true =>
      cases hf : s.config.codeMap.fnOf (controlField I) with
      | some f =>
        rw [step_compute hw ht hf] at h
        exact .inr (.inl ⟨f, rfl, rfl, h⟩)
      | none =>
        rw [step_rejected hw ht hf] at h
        injection h with h
        exact .inr (.inr ⟨rfl, rfl, h.symm⟩)

end Sys2Proof.Machine
end

