-- ==== Sys2Proof/Laws/PerInstr.lean ====
section
/-! SUPPORT. Families of lemmas about instructions as syntax, one lemma per constructor of Instr. -/

namespace Sys2Proof.Laws.Encodes

/-- Under every map that gives each function a code and gives no function a code of the reserved rows, a well-formed instruction has a
word. -/
def Statement (i : Instr) : Prop :=
  ∀ m : CodeMap, (∀ f, (m.codeOf f).isSome = true) → (∀ c : BitVec 5, 18 ≤ c.toNat → m.fnOf c = none) → i.wf = true →
    (encodeWith m i).isSome = true

theorem addressing (value : BitVec 15) : Statement (.addressing value) := fun _ _ _ _ => rfl

/-- The word of a compute instruction is there when its function has a code. -/
theorem encodeCompute_isSome {m : CodeMap} (hm : ∀ f, (m.codeOf f).isSome = true) (f : AluFn) (y : YSource) (dst : Dest)
    (j : Jump) : (encodeCompute m f y dst j).isSome = true := by
  simpa [encodeCompute] using hm f

/-- The word of a reserved row is there when its code has no function. -/
theorem encodeReserved_isSome {m : CodeMap} {w : Word} (h : m.fnOf (controlField w) = none) :
    (encodeReserved m w).isSome = true := by
  simp [encodeReserved, h]

theorem zero (y : YSource) (dst : Dest) (j : Jump) : Statement (.zero y dst j) :=
  fun _ hm _ _ => encodeCompute_isSome hm _ y dst j

theorem one (y : YSource) (dst : Dest) (j : Jump) : Statement (.one y dst j) :=
  fun _ hm _ _ => encodeCompute_isSome hm _ y dst j

theorem passX (y : YSource) (dst : Dest) (j : Jump) : Statement (.passX y dst j) :=
  fun _ hm _ _ => encodeCompute_isSome hm _ y dst j

theorem passY (y : YSource) (dst : Dest) (j : Jump) : Statement (.passY y dst j) :=
  fun _ hm _ _ => encodeCompute_isSome hm _ y dst j

theorem negX (y : YSource) (dst : Dest) (j : Jump) : Statement (.negX y dst j) :=
  fun _ hm _ _ => encodeCompute_isSome hm _ y dst j

theorem negY (y : YSource) (dst : Dest) (j : Jump) : Statement (.negY y dst j) :=
  fun _ hm _ _ => encodeCompute_isSome hm _ y dst j

theorem notX (y : YSource) (dst : Dest) (j : Jump) : Statement (.notX y dst j) :=
  fun _ hm _ _ => encodeCompute_isSome hm _ y dst j

theorem notY (y : YSource) (dst : Dest) (j : Jump) : Statement (.notY y dst j) :=
  fun _ hm _ _ => encodeCompute_isSome hm _ y dst j

theorem incX (y : YSource) (dst : Dest) (j : Jump) : Statement (.incX y dst j) :=
  fun _ hm _ _ => encodeCompute_isSome hm _ y dst j

theorem incY (y : YSource) (dst : Dest) (j : Jump) : Statement (.incY y dst j) :=
  fun _ hm _ _ => encodeCompute_isSome hm _ y dst j

theorem decX (y : YSource) (dst : Dest) (j : Jump) : Statement (.decX y dst j) :=
  fun _ hm _ _ => encodeCompute_isSome hm _ y dst j

theorem decY (y : YSource) (dst : Dest) (j : Jump) : Statement (.decY y dst j) :=
  fun _ hm _ _ => encodeCompute_isSome hm _ y dst j

theorem add (y : YSource) (dst : Dest) (j : Jump) : Statement (.add y dst j) :=
  fun _ hm _ _ => encodeCompute_isSome hm _ y dst j

theorem subXY (y : YSource) (dst : Dest) (j : Jump) : Statement (.subXY y dst j) :=
  fun _ hm _ _ => encodeCompute_isSome hm _ y dst j

theorem subYX (y : YSource) (dst : Dest) (j : Jump) : Statement (.subYX y dst j) :=
  fun _ hm _ _ => encodeCompute_isSome hm _ y dst j

theorem and (y : YSource) (dst : Dest) (j : Jump) : Statement (.and y dst j) :=
  fun _ hm _ _ => encodeCompute_isSome hm _ y dst j

theorem or (y : YSource) (dst : Dest) (j : Jump) : Statement (.or y dst j) :=
  fun _ hm _ _ => encodeCompute_isSome hm _ y dst j

theorem xor (y : YSource) (dst : Dest) (j : Jump) : Statement (.xor y dst j) :=
  fun _ hm _ _ => encodeCompute_isSome hm _ y dst j

theorem reserved18to19 (word : Word) : Statement (.reserved18to19 word) := by
  intro m _ hr hwf
  have h := (inReserved18to19_iff word).1 hwf
  exact encodeReserved_isSome (hr _ (h.2.1))

theorem reserved20to23 (word : Word) : Statement (.reserved20to23 word) := by
  intro m _ hr hwf
  have h := (inReserved20to23_iff word).1 hwf
  exact encodeReserved_isSome (hr _ (Nat.le_trans (by decide) h.2.1))

theorem reserved24to31 (word : Word) : Statement (.reserved24to31 word) := by
  intro m _ hr hwf
  have h := (inReserved24to31_iff word).1 hwf
  exact encodeReserved_isSome (hr _ (Nat.le_trans (by decide) h.2))

end Sys2Proof.Laws.Encodes
end

