-- ==== Sys2Proof/Laws/Run.lean ====
section
/-! SUPPORT. A run of several steps, by the outcome of its first step. -/

namespace Sys2Proof.Machine

variable (M : Host.Core) (n : Nat)

theorem run_zero (s : M.State) : M.run 0 s = .next s := rfl

theorem run_next {s t : M.State} (h : M.step s = .next t) : M.run (n + 1) s = M.run n t := by
  simp only [Host.Core.run, h]

theorem run_fault {s : M.State} {r : M.Fault} (h : M.step s = .fault r) : M.run (n + 1) s = .fault r := by
  simp only [Host.Core.run, h]

theorem run_refused {s : M.State} {r : M.Refusal} (h : M.step s = .refused r) : M.run (n + 1) s = .refused r := by
  simp only [Host.Core.run, h]

end Sys2Proof.Machine
end

