-- ==== Sys2Proof/Tests/Slice0.lean ====
section
/-! SUPPORT. The model's own tests. Expected values are from spec/95_test_vectors.md, by its table or scenario number, or worked by
hand from the rule named in the comment. Every hypothesis of a statement has its witness here, named after the statement. -/

namespace Sys2Proof.Tests

open Sys2Proof.Machine

/-! ### Ill-formed instructions are refused, and the edges of each reserved row are not -/

/-- Control code 17 is XOR and 20 is the next row. -/
theorem test_wf_reserved18to19 :
    (Instr.reserved18to19 0x8440#16).wf = false ∧ (Instr.reserved18to19 0x8500#16).wf = false ∧
    (Instr.reserved18to19 0x0480#16).wf = false ∧ (Instr.reserved18to19 0x8480#16).wf = true ∧
    (Instr.reserved18to19 0xFCFF#16).wf = true := by decide

/-- Control code 19 is the row before and 24 the row after. -/
theorem test_wf_reserved20to23 :
    (Instr.reserved20to23 0x84C0#16).wf = false ∧ (Instr.reserved20to23 0x8600#16).wf = false ∧
    (Instr.reserved20to23 0x0500#16).wf = false ∧ (Instr.reserved20to23 0x8500#16).wf = true ∧
    (Instr.reserved20to23 0xFDFF#16).wf = true := by decide

/-- Control code 23 is the row before. -/
theorem test_wf_reserved24to31 :
    (Instr.reserved24to31 0x85C0#16).wf = false ∧ (Instr.reserved24to31 0x0600#16).wf = false ∧
    (Instr.reserved24to31 0x8600#16).wf = true ∧ (Instr.reserved24to31 0xFFFF#16).wf = true := by decide

/-! ### Decoding, each word written bit by bit: type, spare, a, control, dest, jump (R83) or type, value (R82) -/

/-- The word decodes to the instruction. -/
def decodesTo (I : Word) (i : Instr) : Bool :=
  match decode I with
  | .ok j => decide (j = i)
  | .error _ => false

/-- table 2.6, `@4095`. -/
theorem test_decode_addressing : decodesTo 0b0000111111111111#16 (.addressing 4095#15) = true := by decide

/-- table 2.6, 8810. -/
theorem test_decode_zero : decodesTo 0b1000100000010000#16 (.zero .mem ⟨false, true, false⟩ .never) = true := by decide

/-- R85: code 1, `AMD=1`. -/
theorem test_decode_one : decodesTo 0b1000000001111000#16 (.one .regA ⟨true, true, true⟩ .never) = true := by decide

/-- table 2.6, `D;JEQ`. -/
theorem test_decode_passX : decodesTo 0b1000000010000010#16 (.passX .regA ⟨false, false, false⟩ .eq) = true := by decide

/-- table 2.6, `D=M`. -/
theorem test_decode_passY : decodesTo 0b1000100011010000#16 (.passY .mem ⟨false, true, false⟩ .never) = true := by decide

/-- R85: code 4, `D=-D;JGT`. -/
theorem test_decode_negX : decodesTo 0b1000000100010001#16 (.negX .regA ⟨false, true, false⟩ .gt) = true := by decide

/-- R85: code 5, `A=-M;JGE`. -/
theorem test_decode_negY : decodesTo 0b1000100101100011#16 (.negY .mem ⟨true, false, false⟩ .ge) = true := by decide

/-- R85: code 6, `M=!D;JLT`. -/
theorem test_decode_notX : decodesTo 0b1000000110001100#16 (.notX .regA ⟨false, false, true⟩ .lt) = true := by decide

/-- table 2.7 row 19, `D=!A`. -/
theorem test_decode_notY : decodesTo 0b1000000111010000#16 (.notY .regA ⟨false, true, false⟩ .never) = true := by decide

/-- table 2.7 row 8, `AM=D+1`. -/
theorem test_decode_incX : decodesTo 0b1000001000101000#16 (.incX .regA ⟨true, false, true⟩ .never) = true := by decide

/-- table 2.6, F260: `A=A+1` with spare bits 111. -/
theorem test_decode_incY : decodesTo 0b1111001001100000#16 (.incY .regA ⟨true, false, false⟩ .never) = true := by decide

/-- R85: code 10, `D=D-1;JLE`. -/
theorem test_decode_decX : decodesTo 0b1000001010010110#16 (.decX .regA ⟨false, true, false⟩ .le) = true := by decide

/-- table 2.7 row 6, `M=M-1`. -/
theorem test_decode_decY : decodesTo 0b1000101011001000#16 (.decY .mem ⟨false, false, true⟩ .never) = true := by decide

/-- table 2.6, `M=D+M`. -/
theorem test_decode_add : decodesTo 0b1000101100001000#16 (.add .mem ⟨false, false, true⟩ .never) = true := by decide

/-- table 2.7 row 10, `D=D-M`. -/
theorem test_decode_subXY : decodesTo 0b1000101101010000#16 (.subXY .mem ⟨false, true, false⟩ .never) = true := by decide

/-- table 2.7 row 22, `D=A-D`. -/
theorem test_decode_subYX : decodesTo 0b1000001110010000#16 (.subYX .regA ⟨false, true, false⟩ .never) = true := by decide

/-- table 2.7 row 20, `D=D&A`. -/
theorem test_decode_and : decodesTo 0b1000001111010000#16 (.and .regA ⟨false, true, false⟩ .never) = true := by decide

/-- table 2.6, 8C3D. -/
theorem test_decode_or : decodesTo 0b1000110000111101#16 (.or .mem ⟨true, true, true⟩ .ne) = true := by decide

/-- table 2.6, 847F. -/
theorem test_decode_xor : decodesTo 0b1000010001111111#16 (.xor .regA ⟨true, true, true⟩ .always) = true := by decide

/-- table 2.6, control 18. -/
theorem test_decode_reserved18to19 : decodesTo 0b1000010010000000#16 (.reserved18to19 0x8480#16) = true := by decide

/-- R90: control 23. -/
theorem test_decode_reserved20to23 : decodesTo 0b1000010111000000#16 (.reserved20to23 0x85C0#16) = true := by decide

/-- table 2.6, FFFF. -/
theorem test_decode_reserved24to31 : decodesTo 0b1111111111111111#16 (.reserved24to31 0xFFFF#16) = true := by decide

/-- The table's numbering of bits is the word's own (R7, R80). -/
theorem test_decodeTableWord : decodeTableWord 16 0x8C3D = some (.or .mem ⟨true, true, true⟩ .ne) := by decide

/-- Under a map that moves ADD to code 0 the word 0x8010 is `D=D+A`, and a code without a function and without a reserved row is
rejected by name (R6, R85, R92). -/
theorem test_decode_other_map :
    (match decodeWith [⟨0, .add⟩] 0x8010#16 with
      | .ok i => decide (i = .add .regA ⟨false, true, false⟩ .never)
      | .error _ => false) = true ∧
    (match decodeWith [⟨0, .add⟩] 0x8050#16 with
      | .ok _ => false
      | .error e => decide (e = .controlWithoutFunction 0x8050#16)) = true := by decide

/-! ### One step on a small state -/

/-- A, D, PC, one data cell at A, and the word at PC. -/
def small (a d pc m I : Word) : State :=
  { State.reset with a := a, d := d, pc := pc, dmem := Memory.write [] a m, imem := [(pc.toNat, I)] }

/-- The same with Reset = 1 at the coming edge. -/
def smallReset (a d pc m I : Word) : State := { small a d pc m I with resetPins := [true] }

/-- One step gives these A, D and PC, this word in the data cell that A addressed before, and these reports. -/
def gives (s : State) (a d pc m : Word) (reports : List EncodingError) : Bool :=
  match step s with
  | .next t => decide (t.a = a ∧ t.d = d ∧ t.pc = pc ∧ t.dmem.read s.a = m ∧ t.reports = reports)
  | .fault _ => false
  | .refused _ => false

/-- S1, second row. -/
theorem test_addressing_wraps :
    gives (small 0xFFFF#16 0x0000#16 0xFFFF#16 0x0000#16 0x0005#16) 0x0005#16 0x0000#16 0x0000#16 0x0000#16 [] = true := by decide

/-- S4, first row. -/
theorem test_addressing_under_reset :
    gives (smallReset 0x1111#16 0x2222#16 0x0009#16 0x0000#16 0x0005#16) 0x0005#16 0x2222#16 0x0000#16 0x0000#16 [] = true := by decide

/-- Table 2.7 row 25. -/
theorem test_zero_no_operation :
    gives (small 0x0006#16 0x0005#16 0xFFFF#16 0x1234#16 0x8000#16) 0x0006#16 0x0005#16 0x0000#16 0x1234#16 [] = true := by decide

/-- Table 2.7 row 24. -/
theorem test_zero_jumps :
    gives (small 0xFFFF#16 0x0005#16 0x0007#16 0x0000#16 0x8007#16) 0xFFFF#16 0x0005#16 0xFFFF#16 0x0000#16 [] = true := by decide

/-- R273: `AMD=1`, the store goes to the old A. -/
theorem test_one_to_all :
    gives (small 0x0007#16 0x0005#16 0x0003#16 0x0009#16 0x8078#16) 0x0001#16 0x0001#16 0x0004#16 0x0001#16 [] = true := by decide

/-- S3, first row. -/
theorem test_passX_jumps_on_zero :
    gives (small 0x0030#16 0x0000#16 0x0007#16 0x0000#16 0x8082#16) 0x0030#16 0x0000#16 0x0030#16 0x0000#16 [] = true := by decide

/-- Table 2.7 row 9. -/
theorem test_passX_jumps_to_old_a :
    gives (small 0x0009#16 0x0005#16 0x0005#16 0x0000#16 0x80A7#16) 0x0005#16 0x0005#16 0x0009#16 0x0000#16 [] = true := by decide

/-- Table 2.7 row 5. -/
theorem test_passY_from_memory :
    gives (small 0x0010#16 0x0000#16 0x0001#16 0x00AA#16 0x88D0#16) 0x0010#16 0x00AA#16 0x0002#16 0x00AA#16 [] = true := by decide

/-- Table 2.7 row 2. -/
theorem test_passY_from_a :
    gives (small 0x0002#16 0xBBBB#16 0x0001#16 0x0007#16 0x80D0#16) 0x0002#16 0x0002#16 0x0002#16 0x0007#16 [] = true := by decide

/-- Table 2.7 row 18. -/
theorem test_negX_most_negative :
    gives (small 0x0000#16 0x8000#16 0x0000#16 0x0000#16 0x8110#16) 0x0000#16 0x8000#16 0x0001#16 0x0000#16 [] = true := by decide

/-- R277, `D=-M`; table 2.4, NEGY of 00FF. -/
theorem test_negY_from_memory :
    gives (small 0x0010#16 0x1234#16 0x0000#16 0x00FF#16 0x8950#16) 0x0010#16 0xFF01#16 0x0001#16 0x00FF#16 [] = true := by decide

/-- R278, `M=!D`; table 2.4, NOTX of 1234. -/
theorem test_notX_stores :
    gives (small 0x0020#16 0x1234#16 0x0000#16 0x0000#16 0x8188#16) 0x0020#16 0x1234#16 0x0001#16 0xEDCB#16 [] = true := by decide

/-- Table 2.7 row 19. -/
theorem test_notY_from_a :
    gives (small 0x00FF#16 0x0000#16 0x0000#16 0x0000#16 0x81D0#16) 0x00FF#16 0xFF00#16 0x0001#16 0x0000#16 [] = true := by decide

/-- Table 2.7 row 8. -/
theorem test_incX_store_at_old_a :
    gives (small 0x0007#16 0x0005#16 0x0003#16 0x0000#16 0x8228#16) 0x0006#16 0x0005#16 0x0004#16 0x0006#16 [] = true := by decide

/-- Table 2.7 row 16. -/
theorem test_incX_signed_wrap :
    gives (small 0x0000#16 0x7FFF#16 0x0000#16 0x0000#16 0x8210#16) 0x0000#16 0x8000#16 0x0001#16 0x0000#16 [] = true := by decide

/-- S2, second row. -/
theorem test_incY_wraps :
    gives (small 0xFFFF#16 0x2222#16 0x0003#16 0x0000#16 0x8260#16) 0x0000#16 0x2222#16 0x0004#16 0x0000#16 [] = true := by decide

/-- S2, third row. -/
theorem test_incY_signed_wrap :
    gives (small 0x7FFF#16 0x2222#16 0x0003#16 0x0000#16 0x8260#16) 0x8000#16 0x2222#16 0x0004#16 0x0000#16 [] = true := by decide

/-- Table 2.7 row 17. -/
theorem test_decX_wraps :
    gives (small 0x0000#16 0x0000#16 0x0000#16 0x0000#16 0x8290#16) 0x0000#16 0xFFFF#16 0x0001#16 0x0000#16 [] = true := by decide

/-- Table 2.7 row 6. -/
theorem test_decY_in_memory :
    gives (small 0x0000#16 0x0004#16 0x000D#16 0x0004#16 0x8AC8#16) 0x0000#16 0x0004#16 0x000E#16 0x0003#16 [] = true := by decide

/-- Table 2.7 row 7. -/
theorem test_decY_wraps_in_memory :
    gives (small 0x0000#16 0x0004#16 0x000D#16 0x0000#16 0x8AC8#16) 0x0000#16 0x0004#16 0x000E#16 0xFFFF#16 [] = true := by decide

/-- Table 2.7 row 3. -/
theorem test_add_a :
    gives (small 0x0003#16 0x0002#16 0x0003#16 0x0000#16 0x8310#16) 0x0003#16 0x0005#16 0x0004#16 0x0000#16 [] = true := by decide

/-- R284, `M=D+M`; table 2.4, ADD of 7FFF and 0001. -/
theorem test_add_in_memory :
    gives (small 0xFFFF#16 0x7FFF#16 0x0000#16 0x0001#16 0x8B08#16) 0xFFFF#16 0x7FFF#16 0x0001#16 0x8000#16 [] = true := by decide

/-- Table 2.7 row 10. -/
theorem test_subXY_from_memory :
    gives (small 0x0001#16 0xFFFD#16 0x0003#16 0x0004#16 0x8B50#16) 0x0001#16 0xFFF9#16 0x0004#16 0x0004#16 [] = true := by decide

/-- Table 2.7 row 22. -/
theorem test_subYX_from_a :
    gives (small 0x0007#16 0x0005#16 0x0000#16 0x0000#16 0x8390#16) 0x0007#16 0x0002#16 0x0001#16 0x0000#16 [] = true := by decide

/-- R286, `D=M-D`; table 2.4, SUBYX of 7FFF and 0001. -/
theorem test_subYX_from_memory :
    gives (small 0x0010#16 0x7FFF#16 0x0000#16 0x0001#16 0x8B90#16) 0x0010#16 0x8002#16 0x0001#16 0x0001#16 [] = true := by decide

/-- Table 2.7 row 20. -/
theorem test_and_a :
    gives (small 0x00FF#16 0x1234#16 0x0000#16 0x0000#16 0x83D0#16) 0x00FF#16 0x0034#16 0x0001#16 0x0000#16 [] = true := by decide

/-- Table 2.7 row 14. -/
theorem test_or_to_all_jumps :
    gives (small 0x0020#16 0x00F0#16 0x0002#16 0x000F#16 0x8C3D#16) 0x00FF#16 0x00FF#16 0x0020#16 0x00FF#16 [] = true := by decide

/-- Table 2.7 row 15. -/
theorem test_or_to_all_stays :
    gives (small 0x0020#16 0x0000#16 0x0002#16 0x0000#16 0x8C3D#16) 0x0000#16 0x0000#16 0x0003#16 0x0000#16 [] = true := by decide

/-- Table 2.7 row 21. -/
theorem test_xor_from_memory :
    gives (small 0x0002#16 0x1234#16 0x0000#16 0x00FF#16 0x8C50#16) 0x0002#16 0x12CB#16 0x0001#16 0x00FF#16 [] = true := by decide

/-- Table 2.7 row 26. -/
theorem test_reserved18to19_holds :
    gives (small 0x0001#16 0x0001#16 0x0002#16 0x0009#16 0x8480#16) 0x0001#16 0x0001#16 0x0002#16 0x0009#16 [⟨0x8480#16, 0x0002#16⟩] = true := by decide

/-- S4, last row. -/
theorem test_reserved18to19_under_reset :
    gives (smallReset 0x0001#16 0x0001#16 0x0002#16 0x0009#16 0x8480#16) 0x0001#16 0x0001#16 0x0000#16 0x0009#16 [⟨0x8480#16, 0x0002#16⟩] = true := by decide

/-- R322, control 20 with every dest bit and JMP: nothing commits. -/
theorem test_reserved20to23_holds :
    gives (small 0x0001#16 0x0001#16 0x0002#16 0x0009#16 0x853F#16) 0x0001#16 0x0001#16 0x0002#16 0x0009#16 [⟨0x853F#16, 0x0002#16⟩] = true := by decide

/-- R322, control 31: nothing commits. -/
theorem test_reserved24to31_holds :
    gives (small 0x0001#16 0x0001#16 0x0002#16 0x0009#16 0xFFFF#16) 0x0001#16 0x0001#16 0x0002#16 0x0009#16 [⟨0xFFFF#16, 0x0002#16⟩] = true := by decide

/-- S4, fourth row: under Reset the store still happens. -/
theorem test_store_under_reset : gives (smallReset 0x0064#16 0x0003#16 0x0003#16 0x0000#16 0x8088#16) 0x0064#16 0x0003#16 0x0000#16
    0x0003#16 [] = true := by decide

/-- The word that withFetchWord places is the one the next step runs: `AMD=1` right after reset (R273). -/
theorem test_withFetchWord : gives (State.reset.withFetchWord 16 0x8078) 1#16 1#16 1#16 1#16 [] = true := by decide

/-- A store into a unified memory is the next fetch (R62): `M=D` at address 0 with A = 1. -/
theorem test_unified_store_is_fetched :
    (match step ({ State.reset with config := { defaultConfig with unifiedMemory := true }, a := 1#16, d := 0x8078#16 }.withFetchWord
        16 0x8088) with
      | .next t => decide (fetch t = .word 0x8078#16)
      | .fault _ => false
      | .refused _ => false) = true := by decide

/-- A fetch from a cell that was not loaded is refused (P7, R53). -/
theorem test_unloaded_fetch : step State.reset = .refused (.unloadedInstruction 0#16) := rfl

/-- On a platform with 16 data cells, cell 15 can be stored to and cell 16 is a fault (R65). -/
theorem test_absent_data_cell :
    (match exec (.passX .regA ⟨false, false, true⟩ .never)
        { State.reset with config := { defaultConfig with dmemWords := 16 }, a := 15#16, d := 7#16 } with
      | .next t => decide (t.dmem = [(15, 7#16)])
      | .fault _ => false
      | .refused _ => false) = true ∧
    exec (.passX .regA ⟨false, false, true⟩ .never)
      { State.reset with config := { defaultConfig with dmemWords := 16 }, a := 16#16, d := 7#16 } =
      .fault (.absentDataCell 16#16) :=
  ⟨by decide, rfl⟩

/-- Writing 0 unlists a cell, so that equal memories are equal lists. -/
theorem test_memory_canonical :
    Memory.write (Memory.write (Memory.write [] 9#16 1#16) 3#16 2#16) 9#16 0#16 = [(3, 2#16)] := by decide

/-! ### The components (tables 2.1, 2.2, 2.3, 2.5) -/

theorem test_bus_gates :
    busNot 0x1234#16 = 0xEDCB#16 ∧ busAnd 0x1234#16 0x00FF#16 = 0x0034#16 ∧ busOr 0x1234#16 0x00FF#16 = 0x12FF#16 ∧
    busMux false 0xAAAA#16 0x5555#16 = 0xAAAA#16 ∧ busMux true 0xAAAA#16 0x5555#16 = 0x5555#16 := by decide

theorem test_mux_tree :
    muxTree 2 [true, false] [true, false, false, true] = false ∧ muxTree 2 [true, true] [true, false, false, true] = true ∧
    muxTree 3 [true, true, false] [false, true, true, false, true, false, false, true] = false ∧
    muxTree 3 [false, false, true] [false, true, true, false, true, false, false, true] = true ∧ muxTree 0 [] [true] = true := by
  decide

theorem test_register_and_counter :
    registerNext 0x1234#16 0xABCD#16 false = 0x1234#16 ∧ registerNext 0x1234#16 0xABCD#16 true = 0xABCD#16 ∧
    counterNext 0x0009#16 0x0030#16 false false = 0x000A#16 ∧ counterNext 0xFFFF#16 0x0030#16 false false = 0x0000#16 ∧
    counterNext 0x0009#16 0x0030#16 true false = 0x0030#16 ∧ counterNext 0x0009#16 0x0030#16 true true = 0x0000#16 := by decide

/-- Table 2.3, the columns of the flag pairs (0,0), (0,1), (1,0), (1,1), jump codes 0 to 7 from top to bottom. -/
theorem test_jump_conditions :
    ([Jump.never, .gt, .eq, .ge, .lt, .ne, .le, .always].map fun j =>
      [jumpCondition j false false, jumpCondition j false true, jumpCondition j true false, jumpCondition j true true]) =
    [[false, false, false, false], [true, false, false, false], [false, false, true, true], [true, false, true, true],
     [false, true, false, true], [true, true, false, false], [false, true, true, true], [true, true, true, true]] := by decide

/-- Table 2.1: the two readings and the text line of 0x8260. -/
theorem test_readings :
    bitsToInt (bitsOfInt 16 33376) = -32160 ∧ bitsToNat (bitsOfInt 16 (-1)) = 65535 ∧ bitsToNat (bitsOfInt 16 65536) = 0 ∧
    bitsOfInt 5 17 = [true, false, false, false, true] ∧ bitsOfInt 3 6 = [false, true, true] ∧
    parseLine "1000001001100000".toList = some 0x8260#16 ∧ parseLine "100000100110000".toList = none ∧
    parseLine "100000100110000x".toList = none := by decide

/-! ### Circuits -/

/-- Two Registers, each loading the other's output at every edge (table 2.5, R218). -/
def swapCircuit : Except ConfigurationError (Running × Bus × Bus) := do
  let (c, in1, load1, out1) := Circuit.empty.addRegister 0x0001#16
  let (c, in2, load2, out2) := c.addRegister 0x0002#16
  let c ← c.connectBus in1 out2
  let c ← c.connectBus in2 out1
  let r ← c.start.setValue load1 true
  let r ← r.setValue load2 true
  pure (r, out1, out2)

theorem test_registers_swap :
    (match swapCircuit with
      | .ok (r, out1, out2) =>
        decide ((r.edge aluCodeMap).bind (fun r => r.readUnsigned aluCodeMap out1) = some 2 ∧
          (r.edge aluCodeMap).bind (fun r => r.readUnsigned aluCodeMap out2) = some 1)
      | .error _ => false) = true := by decide +kernel

/-- One pin, its NOT, and an attempt to close the loop; a pin never set reads nothing (R116, R123). -/
def loopCircuit : Circuit := { signals := [.pin, .notOf 0, .wire 1], clocked := [], alus := [] }

theorem test_configuration_errors :
    loopCircuit.connect 0 2 = .error .combinationalCycle ∧ loopCircuit.connect 1 0 = .error .alreadyConnected ∧
    loopCircuit.start.setValue 2 true = .error .writeToDrivenSignal ∧ loopCircuit.connectBus [0] [1, 2] = .error .widthMismatch ∧
    loopCircuit.addMuxTree [0] [0, 1, 2] = .error .muxTreeInputCount ∧ loopCircuit.start.value aluCodeMap 2 = none :=
  ⟨rfl, rfl, rfl, rfl, rfl, rfl⟩

/-- R160, k = 0, and log entry 20: the output is a Signal of its own with the input as its source. -/
theorem test_mux_tree_of_one_input :
    loopCircuit.addMuxTree [] [0] = .ok ({ loopCircuit with signals := loopCircuit.signals ++ [.wire 0] }, 3) ∧
    loopCircuit.addMuxTree [] [7] = .error .indexOutOfRange := ⟨rfl, rfl⟩

/-- A pin set twice, and a NOT that follows it (R112, R113). -/
theorem test_set_value :
    (match loopCircuit.start.setValue 0 true with
      | .ok r => decide (r.value aluCodeMap 2 = some false) &&
          (match r.setValue 0 false with
            | .ok r' => decide (r'.value aluCodeMap 2 = some true ∧ r'.pins = [(0, false)])
            | .error _ => false)
      | .error _ => false) = true := by decide

/-- The netlist of R253 on row 14 of table 2.7. -/
theorem test_netlist :
    netlistCycle aluCodeMap { a := 0x0020#16, d := 0x00F0#16, pc := 0x0002#16 }
      { instruction := 0x8C3D#16, memoryInput := 0x000F#16, reset := false } =
    some ({ a := 0x00FF#16, d := 0x00FF#16, pc := 0x0020#16 },
      { memoryOutput := 0x00FF#16, memoryAddress := 0x0020#16, memoryWrite := true, instructionAddress := 0x0002#16 }) := by
  decide +kernel
/-! ### Witnesses: for each statement with hypotheses, concrete values that meet them, at the edges of each clause -/

/-- The answer is a next state. -/
def isNext (o : Host.Outcome State Fault Refusal) : Bool :=
  match o with
  | .next _ => true
  | .fault _ => false
  | .refused _ => false

theorem eq_next_of_isNext {o : Host.Outcome State Fault Refusal} (h : isNext o = true) : ∃ t, o = .next t := by
  cases o with
  | next t => exact ⟨t, rfl⟩
  | fault r => cases h
  | refused r => cases h

/-- A word is at PC and the step on it answers a next state. -/
theorem fetched_and_next {s : State} {I : Word} (h : fetch s = .word I ∧ isNext (step s) = true) :
    fetch s = .word I ∧ ∃ t, step s = .next t := ⟨h.1, eq_next_of_isNext h.2⟩

/-- The last cell of both memories holds something: A and PC are FFFF, the word there is the given one. -/
def top (I : Word) : State := small 0xFFFF#16 0x7FFF#16 0xFFFF#16 0x0001#16 I

/-- The same in a unified memory, where the word at PC is also the data cell at A. -/
def topUnified (I : Word) : State :=
  { top I with dmem := Memory.write [] 0xFFFF#16 I, config := { defaultConfig with unifiedMemory := true } }

/-- A platform with 16 cells in each memory, with A and PC at the given address. -/
def sixteenCells (a : Word) : State :=
  { State.reset with a := a, pc := a, config := { defaultConfig with dmemWords := 16, imemWords := 16 } }

theorem witness_DecodeInvertsEncode : (Instr.addressing 0x7FFF#15).wf = true ∧ (Instr.reserved18to19 0xFCFF#16).wf = true ∧
    (Instr.reserved20to23 0x8500#16).wf = true ∧ (Instr.reserved24to31 0xFFFF#16).wf = true ∧
    (Instr.xor .mem ⟨true, true, true⟩ .always).wf = true := by decide

/-- A map with other codes, and a compute and a reserved instruction that have a word under it. -/
theorem witness_DecodeInvertsEncodeForEveryMap :
    CodeMap.Functional [⟨31, .add⟩, ⟨0, .xor⟩] ∧ (Instr.add .regA ⟨true, true, true⟩ .always).wf = true ∧
    encodeWith [⟨31, .add⟩, ⟨0, .xor⟩] (.add .regA ⟨true, true, true⟩ .always) = some 0x87FF#16 ∧
    (Instr.reserved24to31 0x8600#16).wf = true ∧
    encodeWith [⟨31, .add⟩, ⟨0, .xor⟩] (.reserved24to31 0x8600#16) = some 0x8600#16 := by decide

theorem witness_EncodeInvertsDecode :
    decode 0x7FFF#16 = .ok (.addressing 0x7FFF#15) ∧ decode 0xF260#16 = .ok (.incY .regA ⟨true, false, false⟩ .never) ∧
    decode 0xFFFF#16 = .ok (.reserved24to31 0xFFFF#16) := ⟨rfl, rfl, rfl⟩

theorem witness_SpareBitsAreIgnored :
    (typeBit 0x8260#16 = true ∧ (aluCodeMap.fnOf (controlField 0x8260#16)).isSome = true) ∧
    encodeWith aluCodeMap (Instr.compute .xor .mem ⟨true, true, true⟩ .always) = some 0x8C7F#16 := by decide

/-- Control codes 0, 17, 18, 19, 20, 23, 24 and 31, and the last addressing word. -/
theorem witness_DecoderClassifiesEveryWord :
    (0x7FFF#16).getLsbD 15 = false ∧
    ((0x8000#16).getLsbD 15 = true ∧ (controlField 0x8000#16).toNat < 18) ∧
    ((0xFC7F#16).getLsbD 15 = true ∧ (controlField 0xFC7F#16).toNat < 18 ∧ (controlField 0xFC7F#16).toNat = 17) ∧
    ((0x8480#16).getLsbD 15 = true ∧ 18 ≤ (controlField 0x8480#16).toNat ∧ (controlField 0x8480#16).toNat < 20) ∧
    ((0x84C0#16).getLsbD 15 = true ∧ 18 ≤ (controlField 0x84C0#16).toNat ∧ (controlField 0x84C0#16).toNat < 20) ∧
    ((0x8500#16).getLsbD 15 = true ∧ 20 ≤ (controlField 0x8500#16).toNat ∧ (controlField 0x8500#16).toNat < 24) ∧
    ((0x85C0#16).getLsbD 15 = true ∧ 20 ≤ (controlField 0x85C0#16).toNat ∧ (controlField 0x85C0#16).toNat < 24) ∧
    ((0x8600#16).getLsbD 15 = true ∧ 24 ≤ (controlField 0x8600#16).toNat) ∧
    ((0xFFFF#16).getLsbD 15 = true ∧ 24 ≤ (controlField 0xFFFF#16).toNat) := by decide

theorem witness_AluFollowsIntegerArithmeticModulo :
    Claims.exactResult .subYX = some (fun x y => y - x) ∧ Claims.exactResult .notX = some (fun x _ => 65535 - x) := ⟨rfl, rfl⟩

theorem witness_FlagsOfAResult :
    (0x0000#16 : Word) = 0#16 ∧ (0x8000#16).getLsbD 15 = true ∧ (0xFFFF#16).getLsbD 15 = true ∧
    (0x0001#16 ≠ 0#16 ∧ (0x0001#16).getLsbD 15 = false) ∧ (0x7FFF#16 ≠ 0#16 ∧ (0x7FFF#16).getLsbD 15 = false) ∧
    ∀ i, i < 16 → (0#16).getLsbD i = false := by decide

theorem witness_JumpFieldComparesTheResultWithZero : (true && false) = false ∧ (false && true) = false := by decide

theorem witness_MuxTreeSelectsTheIndexedInput :
    ([] : List Bool).length = 0 ∧ [true].length = 2 ^ 0 ∧ [true, true, false].length = 3 ∧
    [false, false, false, true, false, false, false, false].length = 2 ^ 3 := by decide

theorem witness_BusGatesActLaneByLane : 0 < 16 ∧ 15 < 16 := by decide

/-- A platform whose map names one code, with a word of another code at PC. -/
def otherMap : State := { top 0x8050#16 with config := { defaultConfig with codeMap := [⟨0, .add⟩] } }

/-- One state for each clause; the last loaded address and the first absent one are the edges. -/
theorem witness_StepIsFetchDecodeExecute :
    ((top 0x8B08#16).pc.toNat < (top 0x8B08#16).config.imemWords ∧ (top 0x8B08#16).imem.find (top 0x8B08#16).pc.toNat = some 0x8B08#16 ∧
      decodeWith (top 0x8B08#16).config.codeMap 0x8B08#16 = .ok (.add .mem ⟨false, false, true⟩ .never)) ∧
    (otherMap.pc.toNat < otherMap.config.imemWords ∧ otherMap.imem.find otherMap.pc.toNat = some 0x8050#16 ∧
      decodeWith otherMap.config.codeMap 0x8050#16 = .error (.controlWithoutFunction 0x8050#16)) ∧
    (State.reset.pc.toNat < State.reset.config.imemWords ∧ State.reset.imem.find State.reset.pc.toNat = none) ∧
    ¬ (sixteenCells 16#16).pc.toNat < (sixteenCells 16#16).config.imemWords :=
  ⟨⟨by decide, rfl, rfl⟩, ⟨by decide, rfl, rfl⟩, ⟨by decide, rfl⟩, by decide⟩

theorem witness_ZeroCompletes :
    ((⟨true, true, true⟩ : Dest).toM = true → (top 0#16).a.toNat < (top 0#16).config.dmemWords) ∧
    isNext (exec (.zero .mem ⟨true, true, true⟩ .always) (top 0#16)) = true := by decide

theorem witness_OneCompletes :
    ((⟨true, true, true⟩ : Dest).toM = true → (top 0#16).a.toNat < (top 0#16).config.dmemWords) ∧
    isNext (exec (.one .mem ⟨true, true, true⟩ .always) (top 0#16)) = true := by decide

theorem witness_PassXCompletes :
    ((⟨true, true, true⟩ : Dest).toM = true → (top 0#16).a.toNat < (top 0#16).config.dmemWords) ∧
    isNext (exec (.passX .mem ⟨true, true, true⟩ .always) (top 0#16)) = true := by decide

theorem witness_PassYCompletes :
    (YSource.mem = .mem ∨ (⟨true, true, true⟩ : Dest).toM = true → (top 0#16).a.toNat < (top 0#16).config.dmemWords) ∧
    isNext (exec (.passY .mem ⟨true, true, true⟩ .always) (top 0#16)) = true := by decide

theorem witness_NegXCompletes :
    ((⟨true, true, true⟩ : Dest).toM = true → (top 0#16).a.toNat < (top 0#16).config.dmemWords) ∧
    isNext (exec (.negX .mem ⟨true, true, true⟩ .always) (top 0#16)) = true := by decide

theorem witness_NegYCompletes :
    (YSource.mem = .mem ∨ (⟨true, true, true⟩ : Dest).toM = true → (top 0#16).a.toNat < (top 0#16).config.dmemWords) ∧
    isNext (exec (.negY .mem ⟨true, true, true⟩ .always) (top 0#16)) = true := by decide

theorem witness_NotXCompletes :
    ((⟨true, true, true⟩ : Dest).toM = true → (top 0#16).a.toNat < (top 0#16).config.dmemWords) ∧
    isNext (exec (.notX .mem ⟨true, true, true⟩ .always) (top 0#16)) = true := by decide

theorem witness_NotYCompletes :
    (YSource.mem = .mem ∨ (⟨true, true, true⟩ : Dest).toM = true → (top 0#16).a.toNat < (top 0#16).config.dmemWords) ∧
    isNext (exec (.notY .mem ⟨true, true, true⟩ .always) (top 0#16)) = true := by decide

theorem witness_IncXCompletes :
    ((⟨true, true, true⟩ : Dest).toM = true → (top 0#16).a.toNat < (top 0#16).config.dmemWords) ∧
    isNext (exec (.incX .mem ⟨true, true, true⟩ .always) (top 0#16)) = true := by decide

theorem witness_IncYCompletes :
    (YSource.mem = .mem ∨ (⟨true, true, true⟩ : Dest).toM = true → (top 0#16).a.toNat < (top 0#16).config.dmemWords) ∧
    isNext (exec (.incY .mem ⟨true, true, true⟩ .always) (top 0#16)) = true := by decide

theorem witness_DecXCompletes :
    ((⟨true, true, true⟩ : Dest).toM = true → (top 0#16).a.toNat < (top 0#16).config.dmemWords) ∧
    isNext (exec (.decX .mem ⟨true, true, true⟩ .always) (top 0#16)) = true := by decide

theorem witness_DecYCompletes :
    (YSource.mem = .mem ∨ (⟨true, true, true⟩ : Dest).toM = true → (top 0#16).a.toNat < (top 0#16).config.dmemWords) ∧
    isNext (exec (.decY .mem ⟨true, true, true⟩ .always) (top 0#16)) = true := by decide

theorem witness_AddCompletes :
    (YSource.mem = .mem ∨ (⟨true, true, true⟩ : Dest).toM = true → (top 0#16).a.toNat < (top 0#16).config.dmemWords) ∧
    isNext (exec (.add .mem ⟨true, true, true⟩ .always) (top 0#16)) = true := by decide

theorem witness_SubXYCompletes :
    (YSource.mem = .mem ∨ (⟨true, true, true⟩ : Dest).toM = true → (top 0#16).a.toNat < (top 0#16).config.dmemWords) ∧
    isNext (exec (.subXY .mem ⟨true, true, true⟩ .always) (top 0#16)) = true := by decide

theorem witness_SubYXCompletes :
    (YSource.mem = .mem ∨ (⟨true, true, true⟩ : Dest).toM = true → (top 0#16).a.toNat < (top 0#16).config.dmemWords) ∧
    isNext (exec (.subYX .mem ⟨true, true, true⟩ .always) (top 0#16)) = true := by decide

theorem witness_AndCompletes :
    (YSource.mem = .mem ∨ (⟨true, true, true⟩ : Dest).toM = true → (top 0#16).a.toNat < (top 0#16).config.dmemWords) ∧
    isNext (exec (.and .mem ⟨true, true, true⟩ .always) (top 0#16)) = true := by decide

theorem witness_OrCompletes :
    (YSource.mem = .mem ∨ (⟨true, true, true⟩ : Dest).toM = true → (top 0#16).a.toNat < (top 0#16).config.dmemWords) ∧
    isNext (exec (.or .mem ⟨true, true, true⟩ .always) (top 0#16)) = true := by decide

theorem witness_XorCompletes :
    (YSource.mem = .mem ∨ (⟨true, true, true⟩ : Dest).toM = true → (top 0#16).a.toNat < (top 0#16).config.dmemWords) ∧
    isNext (exec (.xor .mem ⟨true, true, true⟩ .always) (top 0#16)) = true := by decide

theorem witness_ReservedRowsAreRejected :
    (Instr.reserved18to19 0x84C0#16 = .reserved18to19 0x84C0#16 ∨ Instr.reserved18to19 0x84C0#16 = .reserved20to23 0x84C0#16 ∨
      Instr.reserved18to19 0x84C0#16 = .reserved24to31 0x84C0#16) ∧
    (Instr.reserved20to23 0x85C0#16 = .reserved18to19 0x85C0#16 ∨ Instr.reserved20to23 0x85C0#16 = .reserved20to23 0x85C0#16 ∨
      Instr.reserved20to23 0x85C0#16 = .reserved24to31 0x85C0#16) ∧
    (Instr.reserved24to31 0xFFFF#16 = .reserved18to19 0xFFFF#16 ∨ Instr.reserved24to31 0xFFFF#16 = .reserved20to23 0xFFFF#16 ∨
      Instr.reserved24to31 0xFFFF#16 = .reserved24to31 0xFFFF#16) := by decide

/-- A form that stores nothing and loads nothing, and one that does all three, with an address beside the stored one. -/
theorem witness_ComputeInstructionsFrame :
    (∃ t, exec (Instr.compute .add .mem ⟨false, false, false⟩ .always) (top 0#16) = .next t) ∧
    (∃ t, exec (Instr.compute .add .mem ⟨true, true, true⟩ .always) (topUnified 0#16) = .next t) ∧
    ((⟨true, true, true⟩ : Dest).toM = true → 0xFFFE#16 ≠ (topUnified 0#16).a) ∧
    ((⟨true, true, true⟩ : Dest).toM = true → (topUnified 0#16).config.unifiedMemory = true → 0xFFFE ≠ (topUnified 0#16).a.toNat) :=
  ⟨eq_next_of_isNext (by decide), eq_next_of_isNext (by decide), by decide, by decide⟩

theorem witness_AddressingFrame : ∃ t, exec (.addressing 0x7FFF#15) (top 0#16) = .next t := eq_next_of_isNext (by decide)

/-- An addressing word, a compute word that jumps and one that does not, a reserved word, and a Reset edge. -/
theorem witness_NextPcOfEveryStep :
    (fetch (top 0x7FFF#16) = .word 0x7FFF#16 ∧ ∃ t, step (top 0x7FFF#16) = .next t) ∧
    (fetch (top 0x8007#16) = .word 0x8007#16 ∧ ∃ t, step (top 0x8007#16) = .next t) ∧
    (fetch (top 0x8001#16) = .word 0x8001#16 ∧ ∃ t, step (top 0x8001#16) = .next t) ∧
    (fetch (top 0xFFFF#16) = .word 0xFFFF#16 ∧ ∃ t, step (top 0xFFFF#16) = .next t) ∧
    (fetch (smallReset 1#16 2#16 3#16 4#16 0x8007#16) = .word 0x8007#16 ∧
      ∃ t, step (smallReset 1#16 2#16 3#16 4#16 0x8007#16) = .next t) :=
  ⟨fetched_and_next (by decide), fetched_and_next (by decide), fetched_and_next (by decide), fetched_and_next (by decide),
    fetched_and_next (by decide)⟩

theorem witness_RegistersChangeAsTheirLoadsSay :
    fetch (top 0x8B30#16) = .word 0x8B30#16 ∧ ∃ t, step (top 0x8B30#16) = .next t := fetched_and_next (by decide)

theorem witness_DataMemoryChangesAsMemoryWriteSays :
    fetch (top 0x8B08#16) = .word 0x8B08#16 ∧ ∃ t, step (top 0x8B08#16) = .next t := fetched_and_next (by decide)

/-- A separate memory, and a unified one on a storing word and on one that does not store. -/
theorem witness_InstructionMemoryChangesOnlyIfUnified :
    ((top 0x8B08#16).config.unifiedMemory = false ∧ ∃ t, step (top 0x8B08#16) = .next t) ∧
    ((topUnified 0x8B08#16).config.unifiedMemory = true ∧ fetch (topUnified 0x8B08#16) = .word 0x8B08#16 ∧
      (∃ t, step (topUnified 0x8B08#16) = .next t) ∧ (0x8B08#16).getLsbD 15 = true ∧ (0x8B08#16).getLsbD 3 = true ∧
      (topUnified 0x8B08#16).config.codeMap.fnOf (controlField 0x8B08#16) = some .add ∧
      (topUnified 0x8B08#16).a.toNat < (topUnified 0x8B08#16).config.imemWords ∧ 0xFFFE ≠ (topUnified 0x8B08#16).a.toNat) ∧
    ((topUnified 0x8B10#16).config.unifiedMemory = true ∧ fetch (topUnified 0x8B10#16) = .word 0x8B10#16 ∧
      (∃ t, step (topUnified 0x8B10#16) = .next t) ∧
      ((0x8B10#16).getLsbD 15 && (0x8B10#16).getLsbD 3 &&
        ((topUnified 0x8B10#16).config.codeMap.fnOf (controlField 0x8B10#16)).isSome) = false) :=
  ⟨⟨rfl, eq_next_of_isNext (by decide)⟩,
    ⟨rfl, by decide, eq_next_of_isNext (by decide), by decide, by decide, by decide, by decide, by decide⟩,
    ⟨rfl, by decide, eq_next_of_isNext (by decide), by decide⟩⟩

theorem witness_StepChangesNoParameter : ∃ t, step (top 0x8B08#16) = .next t := eq_next_of_isNext (by decide)

theorem witness_ResetReplacesOnlyThePc : ∃ t, step { top 0x8B3F#16 with resetPins := false :: [true] } = .next t :=
  eq_next_of_isNext (by decide)

/-- A word that is rejected and one that is not. -/
theorem witness_EncodingErrorExactlyOnCodesWithoutFunction :
    (fetch (top 0x8480#16) = .word 0x8480#16 ∧ ∃ t, step (top 0x8480#16) = .next t) ∧
    (fetch (top 0x8440#16) = .word 0x8440#16 ∧ ∃ t, step (top 0x8440#16) = .next t) :=
  ⟨fetched_and_next (by decide), fetched_and_next (by decide)⟩

theorem witness_RejectedWordHoldsTheMachine :
    fetch ({ top 0x8480#16 with resetPins := [false] } : State) = .word 0x8480#16 ∧
    isRejected ({ top 0x8480#16 with resetPins := [false] } : State).config.codeMap 0x8480#16 = true ∧
    ∀ b ∈ ({ top 0x8480#16 with resetPins := [false] } : State).resetPins, b = false := by decide

/-- Two cycles on a rejected word, and a state with a report. -/
theorem witness_ReportsAreKept :
    (∃ t, Host.Core.run Sys2Proof.core 2 (top 0x8480#16) = .next t) ∧
    ¬ NoFault ({ State.reset with reports := [⟨0x8480#16, 0#16⟩] } : State) :=
  ⟨⟨_, rfl⟩, fun h => nomatch h⟩

/-- A unified memory with a report, about to store over the word it runs, and a separate one. -/
theorem witness_StepKeepsInvariant :
    (Machine.Inv { topUnified 0x8B08#16 with reports := [⟨0x8480#16, 0#16⟩] } ∧
      ∃ t, step { topUnified 0x8B08#16 with reports := [⟨0x8480#16, 0#16⟩] } = .next t) ∧
    Machine.Inv (top 0x8480#16) ∧ ∃ t, step (top 0x8480#16) = .next t :=
  ⟨⟨by unfold Machine.Inv; decide, eq_next_of_isNext (by decide)⟩, by unfold Machine.Inv; decide, eq_next_of_isNext (by decide)⟩

theorem witness_StepCompletesOnTheDefaultSizes :
    fetch (top 0x8B08#16) = .word 0x8B08#16 ∧ 65536 ≤ (top 0x8B08#16).config.dmemWords :=
  ⟨by decide, Nat.le_refl _⟩

/-- Cell 16 of a platform with 16 cells: a form that reads it and one that stores to it. -/
theorem witness_AbsentCellStopsTheInstruction :
    ¬ (sixteenCells 16#16).a.toNat < (sixteenCells 16#16).config.dmemWords ∧
    ((YSource.mem = .mem ∧
        AluFn.passY ∈ [.passY, .negY, .notY, .incY, .decY, .add, .subXY, .subYX, .and, .or, .xor]) ∨
      (⟨true, true, false⟩ : Dest).toM = true) ∧
    ((YSource.regA = .mem ∧
        AluFn.passX ∈ [.passY, .negY, .notY, .incY, .decY, .add, .subXY, .subYX, .and, .or, .xor]) ∨
      (⟨false, false, true⟩ : Dest).toM = true) := by decide

theorem witness_StepRefinesTheCpuStepFunction :
    fetch (top 0x8B08#16) = .word 0x8B08#16 ∧ (top 0x8B08#16).a.toNat < (top 0x8B08#16).config.dmemWords := by decide

theorem witness_WiredCpuRefinesTheStepFunction :
    let p : CpuPins := { instruction := 0xFC7F#16, memoryInput := 1#16, reset := false }
    p.instruction.getLsbD 15 = true ∧ (aluCodeMap.fnOf (controlField p.instruction)).isSome = true := by decide

theorem witness_OutputsMirrorRegistersAndResult :
    let p : CpuPins := { instruction := 0xFC7F#16, memoryInput := 1#16, reset := false }
    p.instruction.getLsbD 15 = true ∧ aluCodeMap.fnOf (controlField p.instruction) = some .xor := by decide

/-- A line of 15 characters, one of 17, and one of 16 with a letter. -/
theorem witness_TextLineIsTheWord :
    (List.replicate 15 '1').length ≠ 16 ∧ (List.replicate 17 '1').length ≠ 16 ∧
    ∃ c ∈ 'x' :: List.replicate 15 '1', c ≠ '0' ∧ c ≠ '1' :=
  ⟨by decide, by decide, 'x', List.mem_cons_self, by decide⟩

/-- Two instruction cells: a program that fills them and one that is a word too long, with separate memories and with a unified one. -/
def twoCells (unified : Bool) : State :=
  { State.reset with config := { defaultConfig with imemWords := 2, dmemWords := 2, unifiedMemory := unified } }

theorem witness_LoaderPlacesWordsFromZero :
    ((twoCells false).config.imemWords ≤ 65536 ∧ [0x8078#16, 0x0005#16].length ≤ (twoCells false).config.imemWords ∧
      (twoCells false).config.unifiedMemory = false ∧
      (twoCells false).config.imemWords < [0x8078#16, 0x0005#16, 0x0006#16].length) ∧
    ((twoCells true).config.imemWords ≤ 65536 ∧ [0x8078#16, 0x0005#16].length ≤ (twoCells true).config.imemWords ∧
      (twoCells true).config.unifiedMemory = true) := by decide

/-- Three pins. -/
def threePins : Circuit := { signals := [.pin, .pin, .pin], clocked := [], alus := [] }

/-- `threePins` after Signal 0 was connected to Signal 1. -/
def threePinsConnected : Circuit := { threePins with signals := [.wire 1, .pin, .pin] }

/-- `threePinsConnected` in use, with Signal 1 set. -/
def threePinsSet : Running := { wiring := threePinsConnected, pins := [(1, true)], contents := [] }

/-- In `threePins` no Signal is read by another. -/
theorem threePins_feeds (u w : SignalId) : ¬ Claims.feeds threePins u w := by
  unfold Claims.feeds
  match w with
  | 0 => exact id
  | 1 => exact id
  | 2 => exact id
  | _ + 3 => exact id

/-- Signal 0 may be connected to Signal 1, and it is; a later connect, and reads before and after the pin is set; what is done to the
running circuit. -/
theorem witness_ConnectedSignalMirrorsItsSource :
    (threePins.signals[0]? = some .pin ∧ 1 < threePins.signals.length ∧ ¬ Relation.ReflTransGen (Claims.feeds threePins) 0 1) ∧
    (threePins.connect 0 1 = .ok threePinsConnected ∧ (2 : SignalId) ≠ 0 ∧
      threePinsConnected.connect 1 2 = .ok { threePins with signals := [.wire 1, .wire 2, .pin] } ∧
      threePinsConnected.start.wiring.signals[0]? = threePinsConnected.signals[0]? ∧
      threePinsSet.wiring.signals[0]? = threePinsConnected.signals[0]? ∧ threePinsSet.value aluCodeMap 0 = some true) ∧
    threePinsConnected.start.setValue 1 true = .ok threePinsSet ∧
    threePinsConnected.start.writeAsInteger [1] 1 = .ok threePinsSet ∧ threePinsSet.edge aluCodeMap = some threePinsSet := by
  refine ⟨⟨rfl, by decide, fun h => ?_⟩, ⟨rfl, by decide, rfl, rfl, rfl, rfl⟩, rfl, rfl, rfl⟩
  cases h with
  | tail _ h => exact threePins_feeds _ _ h

/-- One cause for each error; the chain leads from Signal 0 through the NOT and the wire to Signal 2. -/
theorem witness_ConfigurationErrorsAreRaised :
    ([0, 1] : Bus).length ≠ ([0] : Bus).length ∧
    (loopCircuit.start.wiring.signals[1]? = some (.notOf 0) ∧ Driver.notOf 0 ≠ .pin) ∧
    (loopCircuit.signals[1]? = some (.notOf 0) ∧ Driver.notOf 0 ≠ .pin ∧ 2 < loopCircuit.signals.length) ∧
    ([0, 1, 2] : Bus).length ≠ 2 ^ ([0, 1] : Bus).length ∧
    (loopCircuit.signals[0]? = some .pin ∧ 2 < loopCircuit.signals.length ∧
      Relation.ReflTransGen (Claims.feeds loopCircuit) 0 2) ∧
    (loopCircuit.signals[0]? = some .pin ∧ 0 < loopCircuit.signals.length ∧
      Relation.ReflTransGen (Claims.feeds loopCircuit) 0 0) ∧
    ([0, 1] : Bus).length ≤ 2 :=
  ⟨by decide, ⟨rfl, by decide⟩, ⟨rfl, by decide, by decide⟩, by decide,
    ⟨rfl, by decide, .tail (.tail .refl (show Claims.feeds loopCircuit 0 1 from rfl)) (show Claims.feeds loopCircuit 1 2 from rfl)⟩,
    ⟨rfl, by decide, .refl⟩, by decide⟩

/-- A Bus of two pins that can be written; a Bus with a driven lane; every lane is a pin. -/
theorem witness_WriteAsIntegerThenRead :
    (([1, 2] : Bus).Nodup ∧
      threePins.start.writeAsInteger [1, 2] (-2) = .ok { threePins.start with pins := [(1, false), (2, true)] } ∧
      ([1, 2] : Bus)[1]? = some 2) ∧
    ((∀ s ∈ ([1, 0] : Bus), s < threePinsSet.wiring.signals.length) ∧
      ∃ s ∈ ([1, 0] : Bus), threePinsSet.wiring.signals[s]? ≠ some .pin) ∧
    ∀ s ∈ ([1, 2] : Bus), threePinsSet.wiring.signals[s]? = some .pin :=
  ⟨⟨by decide, rfl, rfl⟩, ⟨by decide, 0, by decide, by decide⟩, by decide⟩

end Sys2Proof.Tests
end

section
/-! SUPPORT. Instructions by format, the decoder on each reserved row, and the round trip from an instruction through its word. -/

namespace Sys2Proof

/-! ### Instructions by format (R81) -/

/-- What holds of the addressing instructions, of the compute instruction of every function, and of the three reserved rows holds of
every instruction. -/
theorem Instr.casesOnFormat {P : Instr → Prop} (addressing : ∀ v, P (.addressing v))
    (compute : ∀ f y dst j, P (Instr.compute f y dst j)) (reserved18to19 : ∀ w, P (.reserved18to19 w))
    (reserved20to23 : ∀ w, P (.reserved20to23 w)) (reserved24to31 : ∀ w, P (.reserved24to31 w)) : ∀ i, P i
  | .addressing v => addressing v
  | .zero y dst j => compute .zero y dst j
  | .one y dst j => compute .one y dst j
  | .passX y dst j => compute .passX y dst j
  | .passY y dst j => compute .passY y dst j
  | .negX y dst j => compute .negX y dst j
  | .negY y dst j => compute .negY y dst j
  | .notX y dst j => compute .notX y dst j
  | .notY y dst j => compute .notY y dst j
  | .incX y dst j => compute .incX y dst j
  | .incY y dst j => compute .incY y dst j
  | .decX y dst j => compute .decX y dst j
  | .decY y dst j => compute .decY y dst j
  | .add y dst j => compute .add y dst j
  | .subXY y dst j => compute .subXY y dst j
  | .subYX y dst j => compute .subYX y dst j
  | .and y dst j => compute .and y dst j
  | .or y dst j => compute .or y dst j
  | .xor y dst j => compute .xor y dst j
  | .reserved18to19 w => reserved18to19 w
  | .reserved20to23 w => reserved20to23 w
  | .reserved24to31 w => reserved24to31 w

/-! ### When an instruction has a word (R94) -/

theorem encodeCompute_eq_some_iff {m : CodeMap} {f : AluFn} {y : YSource} {dst : Dest} {j : Jump} {w : Word} :
    encodeCompute m f y dst j = some w ↔ ∃ c, m.codeOf f = some c ∧ computeWord y.bit c dst.bits j.code = w := by
  simp [encodeCompute]

theorem encodeReserved_eq_some_iff {m : CodeMap} {v w : Word} :
    encodeReserved m v = some w ↔ m.fnOf (controlField v) = none ∧ v = w := by
  cases h : m.fnOf (controlField v) <;> simp [encodeReserved, h]

/-! ### The reserved rows are disjoint, so each is read back (R90) -/

theorem decodeReserved_of_inReserved18to19 {w : Word} (h : inReserved18to19 w = true) :
    decodeReserved w = .ok (.reserved18to19 w) := by
  simp [decodeReserved, h]

theorem decodeReserved_of_inReserved20to23 {w : Word} (h : inReserved20to23 w = true) :
    decodeReserved w = .ok (.reserved20to23 w) := by
  have h18 : ¬ inReserved18to19 w = true := by
    rw [inReserved20to23_iff] at h
    rw [inReserved18to19_iff]
    omega
  simp [decodeReserved, h18, h]

theorem decodeReserved_of_inReserved24to31 {w : Word} (h : inReserved24to31 w = true) :
    decodeReserved w = .ok (.reserved24to31 w) := by
  have h18 : ¬ inReserved18to19 w = true := by
    rw [inReserved24to31_iff] at h
    rw [inReserved18to19_iff]
    omega
  have h20 : ¬ inReserved20to23 w = true := by
    rw [inReserved24to31_iff] at h
    rw [inReserved20to23_iff]
    omega
  simp [decodeReserved, h18, h20, h]

/-! ### The decoder on an encoded word, format by format -/

theorem decodeWith_addressingWord (m : CodeMap) (v : BitVec 15) : decodeWith m (addressingWord v) = .ok (.addressing v) := by
  rw [decodeWith_addressing (typeBit_addressingWord v), literalField_addressingWord]

theorem decodeWith_of_encodeCompute {m : CodeMap} (hm : m.Functional) {f : AluFn} {y : YSource} {dst : Dest} {j : Jump} {w : Word}
    (h : encodeCompute m f y dst j = some w) : decodeWith m w = .ok (Instr.compute f y dst j) := by
  obtain ⟨c, hc, rfl⟩ := encodeCompute_eq_some_iff.1 h
  exact decodeWith_computeWord (CodeMap.fnOf_of_codeOf hm hc) y dst j

theorem decodeWith_of_encodeReserved {m : CodeMap} {v w : Word} (ht : typeBit v = true) (h : encodeReserved m v = some w) :
    decodeWith m w = decodeReserved v := by
  obtain ⟨hf, rfl⟩ := encodeReserved_eq_some_iff.1 h
  exact decodeWith_reserved ht hf

/-- Under a map that gives no code two functions, a well-formed instruction is read back from its word. -/
theorem decodeWith_of_encodeWith {m : CodeMap} (hm : m.Functional) {i : Instr} {w : Word} (hwf : i.wf = true)
    (h : encodeWith m i = some w) : decodeWith m w = .ok i := by
  induction i using Instr.casesOnFormat with
  | addressing v =>
    obtain rfl : addressingWord v = w := Option.some.inj h
    exact decodeWith_addressingWord m v
  | compute f y dst j =>
    rw [encodeWith_compute] at h
    exact decodeWith_of_encodeCompute hm h
  | reserved18to19 v =>
    rw [decodeWith_of_encodeReserved ((inReserved18to19_iff v).1 hwf).1 h]
    exact decodeReserved_of_inReserved18to19 hwf
  | reserved20to23 v =>
    rw [decodeWith_of_encodeReserved ((inReserved20to23_iff v).1 hwf).1 h]
    exact decodeReserved_of_inReserved20to23 hwf
  | reserved24to31 v =>
    rw [decodeWith_of_encodeReserved ((inReserved24to31_iff v).1 hwf).1 h]
    exact decodeReserved_of_inReserved24to31 hwf

/-- Settles O2: `decodeWith_of_encodeWith`, format by format. -/
theorem decodeInvertsEncodeForEveryMap : Obligations.DecodeInvertsEncodeForEveryMap := by
  unfold Obligations.DecodeInvertsEncodeForEveryMap
  intro m i w hm hwf h
  exact decodeWith_of_encodeWith hm hwf h

end Sys2Proof
end

section
/-! SUPPORT. Every step is one clock edge or one rejected cycle, and neither touches the parameters. -/

namespace Sys2Proof.Machine

/-- A step that answers a next state is a clock edge of the CPU or a rejected cycle (R231, R322). -/
theorem step_next_eq_clockEdge_or_rejectCycle {s t : State} (h : step s = .next t) :
    (∃ e, t = clockEdge e s) ∨ ∃ I, t = rejectCycle I s := by
  obtain ⟨I, -, ⟨-, haddr⟩ | ⟨f, -, -, hcomp⟩ | ⟨-, -, hrej⟩⟩ := step_cases h
  · exact .inl ⟨_, (Host.Outcome.next.inj haddr).symm⟩
  · exact .inl ⟨_, (computeCycle_next hcomp).2⟩
  · exact .inr ⟨I, hrej⟩

theorem step_config {s t : State} (h : step s = .next t) : t.config = s.config := by
  obtain ⟨e, rfl⟩ | ⟨I, rfl⟩ := step_next_eq_clockEdge_or_rejectCycle h
  · exact clockEdge_config s e
  · exact rejectCycle_config s I

theorem step_resetPins {s t : State} (h : step s = .next t) : t.resetPins = s.resetPins.tail := by
  obtain ⟨e, rfl⟩ | ⟨I, rfl⟩ := step_next_eq_clockEdge_or_rejectCycle h
  · exact clockEdge_resetPins s e
  · exact rejectCycle_resetPins s I

/-- Settles O43: a step is a clock edge or a rejected cycle, and both keep the configuration and drop one Reset level. -/
theorem stepChangesNoParameter : Obligations.StepChangesNoParameter := by
  unfold Obligations.StepChangesNoParameter
  intro s t h
  exact ⟨step_config h, step_resetPins h⟩

end Sys2Proof.Machine
end

section
/-! SUPPORT. The invariant of a machine with nothing in memory and nothing reported, and of the state after reset. -/

namespace Sys2Proof.Machine

theorem defaultConfig_wf : defaultConfig.Wf :=
  ⟨aluCodeMap_functional, Nat.le_refl _, Nat.le_refl _, fun _ => rfl⟩

theorem Memory.wfCode_nil (size : Nat) : Memory.WfCode size [] :=
  ⟨List.Pairwise.nil, List.forall_mem_nil _⟩

theorem Memory.wf_nil (size : Nat) : Memory.Wf size [] :=
  ⟨Memory.wfCode_nil size, List.forall_mem_nil _⟩

/-- With empty memories and no report, only the parameters can break the invariant (R6), on every platform and whatever the
registers hold. -/
theorem inv_of_empty {s : State} (hconfig : s.config.Wf) (hdmem : s.dmem = []) (himem : s.imem = []) (hreports : s.reports = []) :
    Inv s := by
  have hdata : s.dmem.Wf s.config.dmemWords := hdmem ▸ Memory.wf_nil _
  have hcode : s.imem.WfCode s.config.imemWords := himem ▸ Memory.wfCode_nil _
  have hcoherent : Coherent s := fun _ => himem ▸ List.forall_mem_nil _
  have htrue : ∀ r ∈ s.reports, isRejected s.config.codeMap r.word = true := hreports ▸ List.forall_mem_nil _
  exact ⟨hconfig, hdata, hcode, hcoherent, htrue⟩

theorem inv_reset : Inv State.reset :=
  inv_of_empty defaultConfig_wf reset_dmem reset_imem reset_reports

/-- Settles O48: the default parameters make sense (R6), and the state after reset holds nothing else to check. -/
theorem invariantHoldsAtReset : Obligations.InvariantHoldsAtReset := by
  unfold Obligations.InvariantHoldsAtReset
  exact ⟨inv_reset, reset_pc, reset_reports⟩

end Sys2Proof.Machine
end

section
/-! SUPPORT. Every step keeps the invariant: what a store, a clock edge and a rejected cycle keep. -/

namespace Sys2Proof.Machine

theorem coherent_storeCell {s : State} (himem : s.imem.WfCode s.config.imemWords) (h : Coherent s) (x v : Word) :
    Coherent (storeCell s x v) := by
  intro hunified c hc
  have hu : s.config.unifiedMemory = true := hunified
  have hput : c ∈ s.imem.put x.toNat v := by simpa [hu] using hc
  have hfind : (s.imem.put x.toNat v).find c.1 = some c.2 := Memory.find_of_mem (Memory.rising_put _ _ himem.1) hput
  rw [Memory.find_put] at hfind
  rw [storeCell_dmem, Memory.find_write]
  by_cases hx : x.toNat = c.1
  · rw [if_pos hx] at hfind ⊢
    exact Option.some.inj hfind
  · rw [if_neg hx]
    have hold : c ∈ s.imem := (Memory.mem_put hput).resolve_left fun hnew => hx (congrArg Prod.fst hnew).symm
    exact h hu c hold

/-- A store to a cell that exists keeps the invariant; in a unified memory the instruction cell exists as well, because the two
sizes agree (R62). -/
theorem inv_storeCell {s : State} {x : Word} (hcell : x.toNat < s.config.dmemWords) (v : Word) (h : Inv s) :
    Inv (storeCell s x v) := by
  obtain ⟨hconfig, hdmem, himem, hcoherent, hreports⟩ := h
  have himem' : (storeCell s x v).imem.WfCode s.config.imemWords := by
    obtain ⟨-, -, -, hsizes⟩ := hconfig
    rw [storeCell_imem]
    split
    next hunified => exact Memory.put_wfCode v (hsizes hunified ▸ hcell) himem
    next => exact himem
  exact ⟨hconfig, Memory.write_wf v hcell hdmem, himem', coherent_storeCell himem hcoherent x v, hreports⟩

/-- A clock edge keeps the invariant if it stores to no absent cell: beyond the store it changes only registers and pins. -/
theorem inv_clockEdge {s : State} {e : EdgeInputs} (hcell : e.write = true → s.a.toNat < s.config.dmemWords) (h : Inv s) :
    Inv (clockEdge e s) := by
  have hmemories : Inv (if e.write then storeCell s s.a e.store else s) := by
    split
    next hwrite => exact inv_storeCell (hcell hwrite) e.store h
    next => exact h
  exact hmemories

/-- A rejected cycle keeps the invariant if its word is one that the map rejects (R90, R322). -/
theorem inv_rejectCycle {s : State} {I : Word} (hI : isRejected s.config.codeMap I = true) (h : Inv s) :
    Inv (rejectCycle I s) := by
  obtain ⟨hconfig, hdmem, himem, hcoherent, hreports⟩ := h
  exact ⟨hconfig, hdmem, himem, hcoherent, List.forall_mem_cons.2 ⟨hI, hreports⟩⟩

theorem step_inv {s t : State} (h : Inv s) (hstep : step s = .next t) : Inv t := by
  obtain ⟨I, -, ⟨-, haddr⟩ | ⟨f, -, -, hcomp⟩ | ⟨htype, hfn, rfl⟩⟩ := step_cases hstep
  · obtain rfl := Host.Outcome.next.inj haddr
    exact inv_clockEdge nofun h
  · obtain ⟨havailable, rfl⟩ := computeCycle_next hcomp
    exact inv_clockEdge (fun hwrite => havailable (.inr hwrite)) h
  · exact inv_rejectCycle (by simp [isRejected, htype, hfn]) h

/-- Settles O49: `step_inv`, from what an addressing, a compute and a rejected cycle keep. -/
theorem stepKeepsInvariant : Obligations.StepKeepsInvariant := by
  unfold Obligations.StepKeepsInvariant
  intro s t
  exact step_inv

end Sys2Proof.Machine
end

section
/-! SUPPORT. What a step does to the two memories, by the word it fetched (R52, R62, R239). -/

namespace Sys2Proof.Machine

section
variable {s t : State} {I : Word} {f : AluFn}

/-- Bit 3 of a compute word is its memory destination (R86). -/
@[simp] theorem toM_ofBits_destField (I : Word) : (Dest.ofBits (destField I)).toM = I.getLsbD 3 := by
  simp [Dest.ofBits, destField]

theorem aluOut_yWord_eq_wordResult (f : AluFn) (I : Word) (s : State) :
    aluOut f s.d (yWord (YSource.ofBit (aBit I)) s) = Claims.wordResult f I s := by
  unfold Claims.wordResult aBit
  cases I.getLsbD 11 <;> rfl

/-- A step on a compute word whose control code has a function is the clock edge with the word's result (R271). -/
theorem step_compute_next (hw : fetch s = .word I) (ht : typeBit I = true) (hf : s.config.codeMap.fnOf (controlField I) = some f)
    (h : step s = .next t) :
    t = clockEdge (computeEdge (Claims.wordResult f I s) (Dest.ofBits (destField I)) (Jump.ofCode (jumpField I))) s := by
  rw [step_compute hw ht hf] at h
  rw [← aluOut_yWord_eq_wordResult]
  exact (computeCycle_next h).2

theorem step_compute_dmem (hw : fetch s = .word I) (ht : typeBit I = true) (hf : s.config.codeMap.fnOf (controlField I) = some f)
    (h : step s = .next t) : t.dmem = if I.getLsbD 3 then s.dmem.write s.a (Claims.wordResult f I s) else s.dmem := by
  rw [step_compute_next hw ht hf h]
  simp [computeEdge]

theorem step_compute_imem (hw : fetch s = .word I) (ht : typeBit I = true) (hf : s.config.codeMap.fnOf (controlField I) = some f)
    (h : step s = .next t) :
    t.imem = if I.getLsbD 3 && s.config.unifiedMemory then s.imem.put s.a.toNat (Claims.wordResult f I s) else s.imem := by
  rw [step_compute_next hw ht hf h]
  simp [computeEdge]

/-- An addressing word and a rejected word leave both memories (R270, R322). -/
theorem step_keeps_memories (hw : fetch s = .word I)
    (hI : typeBit I = false ∨ s.config.codeMap.fnOf (controlField I) = none) (h : step s = .next t) :
    t.dmem = s.dmem ∧ t.imem = s.imem := by
  cases ht : typeBit I with
  | false =>
    rw [step_addressing hw ht, execAddressing_eq] at h
    obtain rfl := Host.Outcome.next.inj h
    exact ⟨rfl, rfl⟩
  | true =>
    rw [step_rejected hw ht (hI.resolve_left (by simp [ht]))] at h
    obtain rfl := Host.Outcome.next.inj h
    exact ⟨rfl, rfl⟩

theorem step_imem_of_separate (hseparate : s.config.unifiedMemory = false) (h : step s = .next t) : t.imem = s.imem := by
  obtain ⟨e, rfl⟩ | ⟨I, rfl⟩ := step_next_eq_clockEdge_or_rejectCycle h
  · simp [hseparate]
  · rfl

/-- A store into a unified memory changes its own instruction cell and no other (R62). -/
theorem step_find_imem_of_store (hunified : s.config.unifiedMemory = true) (hw : fetch s = .word I) (h : step s = .next t)
    (ht : typeBit I = true) (hm : I.getLsbD 3 = true) (hf : s.config.codeMap.fnOf (controlField I) = some f) (n : Nat) :
    t.imem.find n = if s.a.toNat = n then some (Claims.wordResult f I s) else s.imem.find n := by
  rw [step_compute_imem hw ht hf h, hm, hunified]
  exact Memory.find_put s.imem s.a.toNat n _

theorem step_imem_of_no_store (hw : fetch s = .word I) (h : step s = .next t)
    (hno : (I.getLsbD 15 && I.getLsbD 3 && (s.config.codeMap.fnOf (controlField I)).isSome) = false) : t.imem = s.imem := by
  cases ht : I.getLsbD 15 with
  | false => exact (step_keeps_memories hw (.inl ht) h).2
  | true =>
    cases hf : s.config.codeMap.fnOf (controlField I) with
    | none => exact (step_keeps_memories hw (.inr hf) h).2
    | some f =>
      have hm : I.getLsbD 3 = false := by simpa [ht, hf] using hno
      rw [step_compute_imem hw ht hf h, hm]
      rfl

end

/-- Settles O41: only a compute word with a function writes, and then `Memory.read_write` says what each address reads. -/
theorem dataMemoryChangesAsMemoryWriteSays : Obligations.DataMemoryChangesAsMemoryWriteSays := by
  unfold Obligations.DataMemoryChangesAsMemoryWriteSays
  intro s t I x hw h
  cases ht : I.getLsbD 15 with
  | false => simp [step_keeps_memories hw (.inl ht) h]
  | true =>
    cases hf : s.config.codeMap.fnOf (controlField I) with
    | none => simp [step_keeps_memories hw (.inr hf) h]
    | some f =>
      rw [step_compute_dmem hw ht hf h]
      cases I.getLsbD 3 with
      | false => rfl
      | true => simp [Memory.read_write, eq_comm]

/-- Settles O42: separate memories, a store into a unified one, and a step that stores nothing. -/
theorem instructionMemoryChangesOnlyIfUnified : Obligations.InstructionMemoryChangesOnlyIfUnified := by
  unfold Obligations.InstructionMemoryChangesOnlyIfUnified
  refine ⟨fun s t => step_imem_of_separate, fun s t I hunified hw h => ⟨fun f ht hm hf => ?_, step_imem_of_no_store hw h⟩⟩
  have hfind := step_find_imem_of_store hunified hw h ht hm hf
  refine ⟨fun hexists => ?_, fun n hn => ?_⟩
  · exact (fetch_word_iff _ _).2 ⟨by simpa [step_config h] using hexists, by simp [hfind]⟩
  · rw [hfind, if_neg hn.symm]

end Sys2Proof.Machine
end

section
/-! SUPPORT. A compute instruction that needs an absent data cell (R65, U11). -/

namespace Sys2Proof.Machine

/-- The functions of the table that take operand Y (R91). -/
theorem readsY_of_mem {f : AluFn}
    (h : f ∈ [.passY, .negY, .notY, .incY, .decY, .add, .subXY, .subYX, .and, .or, .xor]) : readsY f = true := by
  revert f
  decide

/-- Settles O51: reading Y from the cell and storing to it are the two needs of `CellAvailable`, and the cell is absent. -/
theorem absentCellStopsTheInstruction : Obligations.AbsentCellStopsTheInstruction := by
  unfold Obligations.AbsentCellStopsTheInstruction
  intro f y dst j s habsent hneeds
  have hcell : usesCell f y = true ∨ dst.toM = true := by
    obtain ⟨rfl, hf⟩ | hm := hneeds
    · exact .inl (readsY_of_mem hf)
    · exact .inr hm
  rw [exec_compute]
  exact computeCycle_of_not_available j fun havailable => habsent (havailable hcell)

end Sys2Proof.Machine
end

section
/-! SUPPORT. The loader: what a program loaded from an address up puts where, and what it leaves (R53, R353). -/

namespace Sys2Proof.Machine

/-- The word of a program, placed from address `a` up, that lands at address `n`. -/
def placedAt (a : Nat) (program : List Word) (n : Nat) : Option Word := if a ≤ n then program[n - a]? else none

@[simp] theorem placedAt_zero (program : List Word) (n : Nat) : placedAt 0 program n = program[n]? := by simp [placedAt]

@[simp] theorem placedAt_nil (a n : Nat) : placedAt a [] n = none := by simp [placedAt]

theorem placedAt_of_lt {a n : Nat} (h : n < a) (program : List Word) : placedAt a program n = none :=
  if_neg (Nat.not_le.2 h)

theorem placedAt_cons (a : Nat) (I : Word) (rest : List Word) (n : Nat) :
    placedAt a (I :: rest) n = if a = n then some I else placedAt (a + 1) rest n := by
  obtain hlt | rfl | hgt := Nat.lt_trichotomy n a
  · rw [placedAt_of_lt hlt, placedAt_of_lt (by omega), if_neg (by omega)]
  · simp [placedAt]
  · have hindex : n - a = n - (a + 1) + 1 := by omega
    rw [if_neg hgt.ne, placedAt, placedAt, if_pos hgt.le, if_pos (Nat.succ_le_of_lt hgt), hindex, List.getElem?_cons_succ]

/-- An address that exists is a 16-bit address (R57). -/
theorem toNat_ofNat_of_address {a size : Nat} (ha : a < size) (hsize : size ≤ 65536) : (BitVec.ofNat 16 a).toNat = a := by
  rw [BitVec.toNat_ofNat]
  exact Nat.mod_eq_of_lt (Nat.lt_of_lt_of_le ha hsize)

theorem loadFrom_cons_eq_some_iff {s t : State} {a : Nat} {I : Word} {rest : List Word} :
    loadFrom s a (I :: rest) = some t ↔
      a < s.config.imemWords ∧ loadFrom (loadWord s (BitVec.ofNat 16 a) I) (a + 1) rest = some t := by
  simp [loadFrom]

/-- A program is loaded exactly when its last word's address exists. -/
theorem loadFrom_isSome_iff {s : State} {a : Nat} (program : List Word) (ha : a ≤ s.config.imemWords) :
    (loadFrom s a program).isSome = true ↔ a + program.length ≤ s.config.imemWords := by
  induction program generalizing s a with
  | nil => simpa [loadFrom] using ha
  | cons I rest ih =>
    by_cases hlt : a < s.config.imemWords
    · have hrest := ih (s := loadWord s (BitVec.ofNat 16 a) I) (a := a + 1) hlt
      simp only [loadFrom, hlt, if_true, hrest, loadWord_config, List.length_cons]
      omega
    · simp only [loadFrom, hlt, if_false, Option.isSome_none, List.length_cons, Bool.false_eq_true, false_iff]
      omega

/-- What `loadWord` keeps at every word, loading a program keeps. -/
theorem loadFrom_preserves {P : State → Prop} (hP : ∀ u x I, P u → P (loadWord u x I)) {s t : State} {a : Nat} {program : List Word}
    (h : loadFrom s a program = some t) (hs : P s) : P t := by
  induction program generalizing s a with
  | nil => exact Option.some.inj h ▸ hs
  | cons I rest ih => exact ih (loadFrom_cons_eq_some_iff.1 h).2 (hP _ _ _ hs)

theorem loadFrom_find_imem {s t : State} {a : Nat} {program : List Word} (hsize : s.config.imemWords ≤ 65536)
    (h : loadFrom s a program = some t) (n : Nat) : t.imem.find n = (placedAt a program n).or (s.imem.find n) := by
  induction program generalizing s a with
  | nil => simp [← Option.some.inj h]
  | cons I rest ih =>
    obtain ⟨hlt, hrest⟩ := loadFrom_cons_eq_some_iff.1 h
    have ha : (BitVec.ofNat 16 a).toNat = a := toNat_ofNat_of_address hlt hsize
    rw [ih (s := loadWord s _ I) hsize hrest, loadWord_imem, Memory.find_put, ha, placedAt_cons]
    by_cases hn : a = n
    · simp [hn, placedAt_of_lt]
    · simp [hn]

theorem loadFrom_dmem_of_separate {s t : State} {a : Nat} {program : List Word} (hseparate : s.config.unifiedMemory = false)
    (h : loadFrom s a program = some t) : t.dmem = s.dmem := by
  have hkept : t.config.unifiedMemory = false ∧ t.dmem = s.dmem :=
    loadFrom_preserves (P := fun u => u.config.unifiedMemory = false ∧ u.dmem = s.dmem)
      (fun u x I hu => by simpa [hu.1] using hu) h ⟨hseparate, rfl⟩
  exact hkept.2

theorem loadFrom_read_dmem_of_unified {s t : State} {a : Nat} {program : List Word} (hunified : s.config.unifiedMemory = true)
    (hsize : s.config.imemWords ≤ 65536) (h : loadFrom s a program = some t) (x : Word) :
    t.dmem.read x = (placedAt a program x.toNat).getD (s.dmem.read x) := by
  induction program generalizing s a with
  | nil => simp [← Option.some.inj h]
  | cons I rest ih =>
    obtain ⟨hlt, hrest⟩ := loadFrom_cons_eq_some_iff.1 h
    have ha : (BitVec.ofNat 16 a).toNat = a := toNat_ofNat_of_address hlt hsize
    have hx : BitVec.ofNat 16 a = x ↔ a = x.toNat := by rw [← BitVec.toNat_inj, ha]
    rw [ih (s := loadWord s _ I) hunified hsize hrest, loadWord_dmem, if_pos hunified, Memory.read_write, placedAt_cons]
    simp only [hx]
    by_cases hn : a = x.toNat
    · simp [hn, placedAt_of_lt]
    · simp [hn]

/-- Loading changes memory only. -/
theorem loadFrom_frame {s t : State} {a : Nat} {program : List Word} (h : loadFrom s a program = some t) :
    t.a = s.a ∧ t.d = s.d ∧ t.pc = s.pc ∧ t.resetPins = s.resetPins ∧ t.reports = s.reports ∧ t.config = s.config :=
  loadFrom_preserves
    (P := fun u => u.a = s.a ∧ u.d = s.d ∧ u.pc = s.pc ∧ u.resetPins = s.resetPins ∧ u.reports = s.reports ∧ u.config = s.config)
    (fun _ _ _ hu => hu) h ⟨rfl, rfl, rfl, rfl, rfl, rfl⟩

/-- Settles O57: a program loaded from 0 has its word n at address n, so the laws of `loadFrom` at address 0 are the claim. -/
theorem loaderPlacesWordsFromZero : Obligations.LoaderPlacesWordsFromZero := by
  unfold Obligations.LoaderPlacesWordsFromZero
  intro s program hsize
  have hloads : (loadProgram s program).isSome = true ↔ program.length ≤ s.config.imemWords := by
    simpa [loadProgram] using loadFrom_isSome_iff program (Nat.zero_le s.config.imemWords)
  refine ⟨fun hfits => ?_, fun hlong => ?_⟩
  · obtain ⟨t, ht⟩ := Option.isSome_iff_exists.1 (hloads.2 hfits)
    refine ⟨t, ht, fun n => ?_, fun hseparate => loadFrom_dmem_of_separate hseparate ht, fun hunified x => ?_, loadFrom_frame ht⟩
    · rw [loadFrom_find_imem hsize ht, placedAt_zero]
      split
      next hn => simp [hn]
      next hn => simp [Nat.not_lt.1 hn]
    · rw [loadFrom_read_dmem_of_unified hunified hsize ht, placedAt_zero]
  · rw [← Option.not_isSome_iff_eq_none, hloads]
    omega

end Sys2Proof.Machine
end

section
/-! SUPPORT. The bits of a word with other spare bits, and the decoder and encoder under the default map, format by format. -/

namespace Sys2Proof

/-! ### The word of a well-formed instruction (R94) -/

/-- `Laws.Encodes.Statement` of every instruction, from its formats. -/
theorem Instr.encodes (i : Instr) : Laws.Encodes.Statement i := by
  induction i using Instr.casesOnFormat with
  | addressing v => exact Laws.Encodes.addressing v
  | compute f y dst j =>
    intro m hm _ _
    rw [encodeWith_compute]
    exact Laws.Encodes.encodeCompute_isSome hm f y dst j
  | reserved18to19 w => exact Laws.Encodes.reserved18to19 w
  | reserved20to23 w => exact Laws.Encodes.reserved20to23 w
  | reserved24to31 w => exact Laws.Encodes.reserved24to31 w

theorem aluCodeMap_fnOf_isNone (c : BitVec 5) : (aluCodeMap.fnOf c).isNone = decide (18 ≤ c.toNat) := by
  rw [← Option.not_isSome, aluCodeMap_fnOf_isSome, ← decide_not, decide_eq_decide, Nat.not_lt]

theorem aluCodeMap_fnOf_eq_none {c : BitVec 5} (h : 18 ≤ c.toNat) : aluCodeMap.fnOf c = none := by
  rw [← Option.isNone_iff_eq_none, aluCodeMap_fnOf_isNone, decide_eq_true h]

theorem encode_isSome {i : Instr} (hwf : i.wf = true) : (encode i).isSome = true :=
  i.encodes aluCodeMap (fun f => Option.isSome_iff_exists.2 (aluCodeMap_codeOf f)) (fun _ => aluCodeMap_fnOf_eq_none) hwf

/-- Settles O1: the default map gives the instruction a word (`encode_isSome`), and it is read back under every map. -/
theorem decodeInvertsEncode : Obligations.DecodeInvertsEncode := by
  unfold Obligations.DecodeInvertsEncode
  intro i hwf
  obtain ⟨w, hw⟩ := Option.isSome_iff_exists.1 (encode_isSome hwf)
  exact ⟨w, hw, decodeWith_of_encodeWith aluCodeMap_functional hwf hw⟩

/-! ### The fields of a word with other spare bits (R89) -/

section
variable (w : Word) (sp : BitVec 3)

theorem getLsbD_withSpare (k : Nat) :
    (Claims.withSpare w sp).getLsbD k = if 12 ≤ k ∧ k < 15 then sp.getLsbD (k - 12) else w.getLsbD k := by
  have hmask : ∀ i : Fin 16, (0x8FFF#16).getLsbD i = decide (¬ (12 ≤ i.val ∧ i.val < 15)) := by decide
  obtain hlt | hge := Nat.lt_or_ge k 16
  · have hk : (0x8FFF#16).getLsbD k = decide (¬ (12 ≤ k ∧ k < 15)) := hmask ⟨k, hlt⟩
    simp only [Claims.withSpare, BitVec.getLsbD_or, BitVec.getLsbD_and, BitVec.getLsbD_shiftLeft, BitVec.getLsbD_setWidth, hk, hlt]
    by_cases hs : 12 ≤ k ∧ k < 15
    · simp [hs, Nat.not_lt.2 hs.1, show k - 12 < 16 by omega]
    · obtain hlow | hhigh : k < 12 ∨ 3 ≤ k - 12 := by omega
      · simp [hs, hlow]
      · simp [hs, BitVec.getLsbD_of_ge sp _ hhigh]
  · rw [BitVec.getLsbD_of_ge _ k hge, if_neg (by omega), BitVec.getLsbD_of_ge _ k hge]

@[simp] theorem typeBit_withSpare : typeBit (Claims.withSpare w sp) = typeBit w := by
  rw [typeBit, getLsbD_withSpare, if_neg (by decide), typeBit]

@[simp] theorem aBit_withSpare : aBit (Claims.withSpare w sp) = aBit w := by
  rw [aBit, getLsbD_withSpare, if_neg (by decide), aBit]

/-- A field that ends below the spare bits is not changed. -/
theorem extractLsb'_withSpare {start len : Nat} (h : start + len ≤ 12) :
    (Claims.withSpare w sp).extractLsb' start len = w.extractLsb' start len := by
  apply BitVec.eq_of_getLsbD_eq
  intro i hi
  rw [BitVec.getLsbD_extractLsb', BitVec.getLsbD_extractLsb', getLsbD_withSpare, if_neg (by omega)]

@[simp] theorem controlField_withSpare : controlField (Claims.withSpare w sp) = controlField w :=
  extractLsb'_withSpare w sp (by decide)

@[simp] theorem destField_withSpare : destField (Claims.withSpare w sp) = destField w :=
  extractLsb'_withSpare w sp (by decide)

@[simp] theorem jumpField_withSpare : jumpField (Claims.withSpare w sp) = jumpField w :=
  extractLsb'_withSpare w sp (by decide)

@[simp] theorem spareField_withSpare : spareField (Claims.withSpare w sp) = sp := by
  apply BitVec.eq_of_getLsbD_eq
  intro i hi
  rw [spareField, BitVec.getLsbD_extractLsb', getLsbD_withSpare, if_pos (by omega), Nat.add_sub_cancel_left]
  simp [hi]

end

/-- The word put together from the fields of a compute word is that word with spare bits 000. -/
theorem computeWord_fields_eq_withSpare {w : Word} (ht : typeBit w = true) :
    computeWord (aBit w) (controlField w) (destField w) (jumpField w) = Claims.withSpare w 0#3 := by
  have hfields := computeWord_fields (I := Claims.withSpare w 0#3) (by simpa using ht) (by simp)
  simpa using hfields

/-! ### The canonical word (R94) -/

theorem addressingWord_literalField {w : Word} (ht : typeBit w = false) : addressingWord (literalField w) = w := by
  have happend : (literalField w).setWidth 16 = addressingWord (literalField w) := BitVec.setWidth_eq_append (by decide)
  rw [← happend, setWidth_literalField ht]

/-- A compute word whose code the default map gives a function is encoded again as the word with spare bits 000. -/
theorem encode_compute_fields {w : Word} {f : AluFn} (ht : typeBit w = true) (hf : aluCodeMap.fnOf (controlField w) = some f) :
    encode (Instr.compute f (YSource.ofBit (aBit w)) (Dest.ofBits (destField w)) (Jump.ofCode (jumpField w))) =
      some (Claims.withSpare w 0#3) := by
  rw [encode, encodeWith_compute, encodeCompute, aluCodeMap_codeOf_fnOf hf]
  simp [computeWord_fields_eq_withSpare ht]

/-- What the decoder reads from a word of a reserved row is encoded as that word. -/
theorem encodeWith_of_decodeReserved {m : CodeMap} {w : Word} {i : Instr} (hf : m.fnOf (controlField w) = none)
    (h : decodeReserved w = .ok i) : encodeWith m i = some w := by
  have hw : encodeReserved m w = some w := encodeReserved_eq_some_iff.2 ⟨hf, rfl⟩
  rcases decodeReserved_cases w with hr | hr | hr | hr
  all_goals
    rw [hr] at h
    cases h
  all_goals exact hw

/-- Settles O3: an addressing word, a compute word with a function, and a word of a reserved row. -/
theorem encodeInvertsDecode : Obligations.EncodeInvertsDecode := by
  unfold Obligations.EncodeInvertsDecode
  intro w i h
  rw [decode] at h
  cases ht : typeBit w with
  | false =>
    rw [decodeWith_addressing ht] at h
    obtain rfl := Except.ok.inj h
    simp [Claims.canonicalWord, ht, encode, encodeWith, addressingWord_literalField ht]
  | true =>
    cases hf : aluCodeMap.fnOf (controlField w) with
    | some f =>
      rw [decodeWith_compute ht hf] at h
      obtain rfl := Except.ok.inj h
      simp [Claims.canonicalWord, ht, hf, encode_compute_fields ht hf]
    | none =>
      rw [decodeWith_reserved ht hf] at h
      simp [Claims.canonicalWord, ht, hf, encode, encodeWith_of_decodeReserved hf h]

/-- The decoder has no input from the spare bits of a compute word whose code has a function. -/
theorem decodeWith_withSpare {m : CodeMap} {w : Word} {f : AluFn} (ht : typeBit w = true)
    (hf : m.fnOf (controlField w) = some f) (sp : BitVec 3) : decodeWith m (Claims.withSpare w sp) = decodeWith m w := by
  rw [decodeWith_compute ht hf, decodeWith_compute (by simpa using ht) (by simpa using hf)]
  simp

/-- Settles O4: no field that the decoder reads contains a spare bit, and an assembled compute word has spare bits 000. -/
theorem spareBitsAreIgnored : Obligations.SpareBitsAreIgnored := by
  unfold Obligations.SpareBitsAreIgnored
  refine ⟨fun m w sp ht hf => ?_, fun m f y dst j w h => ?_⟩
  · obtain ⟨f, hf⟩ := Option.isSome_iff_exists.1 hf
    exact ⟨decodeWith_withSpare ht hf sp, _, decodeWith_compute ht hf⟩
  · rw [encodeWith_compute] at h
    obtain ⟨c, -, rfl⟩ := encodeCompute_eq_some_iff.1 h
    exact spareField_computeWord ..

/-! ### The row of every word (R92) -/

/-- Bits 5, 4 and 3 of a compute word enable A, D and memory (R86). -/
theorem ofBits_destField (I : Word) : Dest.ofBits (destField I) = ⟨I.getLsbD 5, I.getLsbD 4, I.getLsbD 3⟩ := by
  simp [Dest.ofBits, destField]

/-- Settles O5: the laws of the decoder for each format, and the row that each code without a function lies in. -/
theorem decoderClassifiesEveryWord : Obligations.DecoderClassifiesEveryWord := by
  unfold Obligations.DecoderClassifiesEveryWord
  intro w
  have hreserved (ht : typeBit w = true) (hc : 18 ≤ (controlField w).toNat) : decode w = decodeReserved w :=
    decodeWith_reserved ht (aluCodeMap_fnOf_eq_none hc)
  refine ⟨fun ht => decodeWith_addressing ht, fun ht hc => ?_, fun ht hlo hhi => ?_, fun ht hlo hhi => ?_, fun ht hlo => ?_⟩
  · obtain ⟨f, hf⟩ := Option.isSome_iff_exists.1 ((aluCodeMap_fnOf_isSome (controlField w)).trans (decide_eq_true hc))
    refine ⟨f, hf, ?_⟩
    rw [← ofBits_destField]
    exact decodeWith_compute ht hf
  · rw [hreserved ht hlo]
    exact decodeReserved_of_inReserved18to19 ((inReserved18to19_iff w).2 ⟨ht, hlo, hhi⟩)
  · rw [hreserved ht (by omega)]
    exact decodeReserved_of_inReserved20to23 ((inReserved20to23_iff w).2 ⟨ht, hlo, hhi⟩)
  · rw [hreserved ht (by omega)]
    exact decodeReserved_of_inReserved24to31 ((inReserved24to31_iff w).2 ⟨ht, hlo⟩)

/-- Settles O6: each word is decoded by evaluation. -/
theorem writtenWordsDecode : Obligations.WrittenWordsDecode := by
  unfold Obligations.WrittenWordsDecode
  exact ⟨rfl, rfl, rfl, rfl, rfl, rfl, rfl, rfl, rfl, rfl, rfl⟩

end Sys2Proof
end

section
/-! SUPPORT. The jump conditions on the flags of a result (R87, R243). -/

namespace Sys2Proof.Machine

theorem zeroFlag_eq_decide (out : Word) : zeroFlag out = decide (out.toInt = 0) := by
  have hzero : out = 0#16 ↔ out.toInt = 0 := BitVec.toInt_inj.symm
  rw [zeroFlag, ← decide_eq_decide.2 hzero, Bool.beq_eq_decide_eq]

theorem negativeFlag_eq_decide (out : Word) : negativeFlag out = decide (out.toInt < 0) := by
  rw [← BitVec.msb_eq_toInt, BitVec.msb_eq_getLsbD_last]
  rfl

/-- A result is negative, zero or positive, and in each case its flags decide every jump code as the comparison does (R87). -/
theorem jumpTaken_eq_comparesWithZero (j : Jump) (out : Word) : jumpTaken j out = Claims.comparesWithZero j out := by
  rw [jumpTaken, zeroFlag_eq_decide, negativeFlag_eq_decide]
  obtain hneg | hzero | hpos := Int.lt_trichotomy out.toInt 0
  · cases j <;> simp [jumpCondition, Claims.comparesWithZero, hneg, hneg.ne, hneg.le, hneg.not_gt]
  · cases j <;> simp [jumpCondition, Claims.comparesWithZero, hzero]
  · cases j <;> simp [jumpCondition, Claims.comparesWithZero, hpos, hpos.ne', hpos.le, hpos.not_gt]

/-- The formulas of R243, in code order. -/
theorem jumpCondition_ofCode_list (zr ng : Bool) :
    ((List.finRange 8).map fun k => jumpCondition (Jump.ofCode (BitVec.ofFin k)) zr ng) =
      [false, !zr && !ng, zr, zr || !ng, ng, !zr, zr || ng, true] := rfl

/-- On a flag pair that a result can have, each jump bit asks about one sign (R87). -/
theorem jumpCondition_ofCode_bits (b : BitVec 3) {zr ng : Bool} (h : (zr && ng) = false) :
    jumpCondition (Jump.ofCode b) zr ng =
      (b.getLsbD 2 && ng || b.getLsbD 1 && zr || b.getLsbD 0 && !zr && !ng) := by
  revert b zr ng
  decide

/-- Settles O9: `jumpTaken_eq_comparesWithZero`, and the eight formulas and the closed form on every flag pair. -/
theorem jumpFieldComparesTheResultWithZero : Obligations.JumpFieldComparesTheResultWithZero := by
  unfold Obligations.JumpFieldComparesTheResultWithZero
  exact ⟨jumpTaken_eq_comparesWithZero, jumpCondition_ofCode_list, fun b _ _ => jumpCondition_ofCode_bits b⟩

end Sys2Proof.Machine
end

section
/-! SUPPORT. What a step reports, by the word it fetched (R321, R322). -/

namespace Sys2Proof.Machine

theorem step_reports {s t : State} {I : Word} (hw : fetch s = .word I) (h : step s = .next t) :
    t.reports = if isRejected s.config.codeMap I then { word := I, pc := s.pc } :: s.reports else s.reports := by
  obtain ⟨I', hw', hI⟩ := step_cases h
  obtain rfl : I' = I := Fetched.word.inj (hw'.symm.trans hw)
  obtain ⟨ht, haddr⟩ | ⟨f, ht, hf, hcomp⟩ | ⟨ht, hf, rfl⟩ := hI
  · obtain rfl := Host.Outcome.next.inj haddr
    simp [isRejected, ht]
  · obtain ⟨-, rfl⟩ := computeCycle_next hcomp
    simp [isRejected, hf]
  · simp [isRejected, ht, hf]

/-- Settles O45: `step_reports`, and the codes that the default map leaves without a function. -/
theorem encodingErrorExactlyOnCodesWithoutFunction : Obligations.EncodingErrorExactlyOnCodesWithoutFunction := by
  unfold Obligations.EncodingErrorExactlyOnCodesWithoutFunction
  exact ⟨fun _ _ _ => step_reports, aluCodeMap_fnOf_isNone⟩

end Sys2Proof.Machine
end

section
/-! SUPPORT. Machine-code lines (R97). -/

namespace Sys2Proof.Machine

/-- Character k of the line of a word. -/
def lineChar (w : Word) (k : Nat) : Char := if w.getLsbD (15 - k) then '1' else '0'

theorem lineBit_lineChar (w : Word) (k : Nat) : lineBit (lineChar w k) = some (w.getLsbD (15 - k)) := by
  unfold lineChar
  cases w.getLsbD (15 - k) <;> rfl

/-- Reading bit n after the bits above it. -/
theorem shiftRight_succ_append_bit (w : Word) (n : Nat) :
    (w >>> (n + 1)) <<< 1 ||| (BitVec.ofBool (w.getLsbD n)).setWidth 16 = w >>> n := by
  apply BitVec.eq_of_getLsbD_eq
  intro i hi
  cases i with
  | zero => simp
  | succ i => simp [hi, show n + 1 + i = n + (i + 1) by omega]

/-- With the bits from n up already read, the last n characters of the line spell the rest of the word. -/
theorem lineFrom_lineChar (w : Word) {n : Nat} (hn : n ≤ 16) :
    lineFrom ((List.range' (16 - n) n).map (lineChar w)) (w >>> n) = some w := by
  induction n with
  | zero => simp [lineFrom]
  | succ n ih =>
    have hfirst : 16 - (n + 1) = 15 - n := by omega
    have hbit : 15 - (15 - n) = n := by omega
    have hrest : 15 - n + 1 = 16 - n := by omega
    rw [hfirst, List.range'_succ, List.map_cons, lineFrom, lineBit_lineChar, hbit, hrest]
    simp only [shiftRight_succ_append_bit]
    exact ih (by omega)

theorem lineBit_eq_none {c : Char} (h0 : c ≠ '0') (h1 : c ≠ '1') : lineBit c = none := by
  simp [lineBit, h0, h1]

theorem lineFrom_eq_none {line : List Char} {c : Char} (hc : c ∈ line) (hbit : lineBit c = none) (acc : Word) :
    lineFrom line acc = none := by
  induction line generalizing acc with
  | nil => cases hc
  | cons d rest ih =>
    obtain rfl | hrest := List.mem_cons.1 hc
    · simp [lineFrom, hbit]
    · cases hd : lineBit d with
      | none => simp [lineFrom, hd]
      | some b => simpa [lineFrom, hd] using ih hrest _

/-- Settles O56: the whole line is the case of 16 characters to come, and a line with a wrong character is stopped there. -/
theorem textLineIsTheWord : Obligations.TextLineIsTheWord := by
  unfold Obligations.TextLineIsTheWord
  refine ⟨fun w => ?_, fun line hlength => if_neg hlength, fun line ⟨c, hc, h0, h1⟩ => ?_⟩
  · have h := lineFrom_lineChar w (Nat.le_refl 16)
    rw [List.range_eq_range', parseLine, if_pos (by simp)]
    rw [BitVec.ushiftRight_eq_zero (by decide)] at h
    exact h
  · rw [parseLine, lineFrom_eq_none hc (lineBit_eq_none h0 h1), ite_self]

end Sys2Proof.Machine
end

section
/-! SUPPORT. The a bit of a function that does not read Y (R91). -/

namespace Sys2Proof.Machine

theorem computeCycle_mem_of_not_readsY {f : AluFn} (hf : readsY f = false) (dst : Dest) (j : Jump) (s : State) :
    computeCycle f .mem dst j s = computeCycle f .regA dst j s := by
  have hmem : operandY f .mem s = .ok (memoryInput s) := by simp [operandY, hf]
  have hreg : operandY f .regA s = .ok s.a := rfl
  simp only [computeCycle, hmem, hreg, aluOut_of_not_readsY hf _ (memoryInput s) s.a]

/-- Settles O52: `computeCycle_mem_of_not_readsY` for each of the seven functions. -/
theorem unusedABitChangesNothing : Obligations.UnusedABitChangesNothing := by
  unfold Obligations.UnusedABitChangesNothing
  intro dst j s
  have h (f : AluFn) (hf : readsY f = false) : exec (Instr.compute f .mem dst j) s = exec (Instr.compute f .regA dst j) s := by
    rw [exec_compute, exec_compute, computeCycle_mem_of_not_readsY hf]
  exact ⟨h .zero rfl, h .one rfl, h .passX rfl, h .negX rfl, h .notX rfl, h .incX rfl, h .decX rfl⟩

end Sys2Proof.Machine
end

section
/-! SUPPORT. The settled value of a pin and of a wire, and what `connect` leaves as it is (R111, R112, R114). -/

namespace Sys2Proof.Machine

/-! ### The value of a Signal by its driver (R114) -/

/-- The value of a Signal is what its driver makes of the values of its inputs: the fuel spent on the Signal itself is not missed. -/
theorem value_eq_settle_succ (m : CodeMap) (r : Running) (s : SignalId) :
    r.value m s = settle m r (r.wiring.signals.length + 1) s := congrFun (settle_stable m r) s

theorem value_of_wire {r : Running} {s t : SignalId} (m : CodeMap) (h : r.wiring.signals[s]? = some (.wire t)) :
    r.value m s = r.value m t := by
  rw [value_eq_settle_succ, settle, h]
  rfl

theorem value_of_pin {r : Running} {s : SignalId} (m : CodeMap) (h : r.wiring.signals[s]? = some .pin) :
    r.value m s = pinValue r.pins s := by
  rw [value_eq_settle_succ, settle, h]

/-! ### The chains that `connect` looks for (R123) -/

/-- All outputs of an ALU read the same inputs. -/
theorem mem_inputsOf_aluZr {c : Circuit} {part : Nat} {u : SignalId} :
    u ∈ c.inputsOf (.aluZr part) ↔ Claims.aluReads c part u := by
  cases h : c.alus[part]? <;> simp [Circuit.inputsOf, Claims.aluReads, h]

theorem reads_iff_feeds {c : Circuit} {u w : SignalId} : c.Reads u w ↔ Claims.feeds c u w := by
  unfold Circuit.Reads Claims.feeds
  cases c.signals[w]? with
  | none => simp
  | some dr =>
    simp only [Option.some.injEq, exists_eq_left']
    cases dr with
    | aluOut part i => exact mem_inputsOf_aluZr
    | aluZr part => exact mem_inputsOf_aluZr
    | aluNg part => exact mem_inputsOf_aluZr
    | _ => simp [Circuit.inputsOf]

theorem reaches_eq_false_iff {c : Circuit} {s t : SignalId} (hs : s < c.signals.length) :
    c.reaches c.signals.length s t = false ↔ ¬ Relation.ReflTransGen (Claims.feeds c) s t := by
  have hrel : c.Reads = Claims.feeds c := by
    funext u w
    exact propext reads_iff_feeds
  rw [← hrel, ← reaches_iff c hs, Bool.not_eq_true]

/-! ### The sources after `connect` (R111, R112) -/

theorem connect_source {c c' : Circuit} {s t : SignalId} (h : c.connect s t = .ok c') : c'.signals[s]? = some (.wire t) := by
  obtain ⟨-, hpin, -, rfl⟩ := connect_eq_ok.1 h
  exact List.getElem?_set_self (List.getElem?_eq_some_iff.1 hpin).1

theorem connect_source_of_ne {c c' : Circuit} {s t x : SignalId} (h : c.connect s t = .ok c') (hx : x ≠ s) :
    c'.signals[x]? = c.signals[x]? := by
  obtain ⟨-, -, -, rfl⟩ := connect_eq_ok.1 h
  exact List.getElem?_set_ne hx.symm

/-- A Signal with a source is not a pin, so `connect` is refused on it and its source stays. -/
theorem connect_keeps_source {c c' : Circuit} {s u v : SignalId} {dr : Driver} (h : c.connect u v = .ok c')
    (hs : c.signals[s]? = some dr) (hdr : dr ≠ .pin) : c'.signals[s]? = c.signals[s]? := by
  obtain ⟨-, hpin, -, -⟩ := connect_eq_ok.1 h
  refine connect_source_of_ne h ?_
  rintro rfl
  exact hdr (Option.some.inj (hs.symm.trans hpin))

end Sys2Proof.Machine
end

section
/-! SUPPORT. A Bus written lane by lane (R113, R121). -/

namespace Sys2Proof.Machine

/-- Values listed for the lanes of a Bus, lane 0 first. -/
def setPins (pins : List (SignalId × Bool)) (b : Bus) (vs : List Bool) : List (SignalId × Bool) :=
  (b.zip vs).foldl (fun ps lane => setPin ps lane.1 lane.2) pins

@[simp] theorem setPins_nil (pins : List (SignalId × Bool)) (vs : List Bool) : setPins pins [] vs = pins := rfl

@[simp] theorem setPins_cons (pins : List (SignalId × Bool)) (s : SignalId) (b : Bus) (v : Bool) (vs : List Bool) :
    setPins pins (s :: b) (v :: vs) = setPins (setPin pins s v) b vs := rfl

/-! ### What `setValue` and `writeAsInteger` can do (R113, R121) -/

theorem setLanes_cons_of_ok {r r' : Running} {s : SignalId} {v : Bool} (h : r.setValue s v = .ok r') (b : Bus) (vs : List Bool) :
    setLanes r (s :: b) (v :: vs) = setLanes r' b vs := by
  rw [setLanes, h]

theorem setLanes_cons_of_error {r : Running} {s : SignalId} {v : Bool} {e : ConfigurationError} (h : r.setValue s v = .error e)
    (b : Bus) (vs : List Bool) : setLanes r (s :: b) (v :: vs) = .error e := by
  rw [setLanes, h]

theorem setLanes_eq_ok {b : Bus} {vs : List Bool} (hlen : b.length = vs.length) {r r' : Running} :
    setLanes r b vs = .ok r' ↔
      (∀ s ∈ b, r.wiring.signals[s]? = some .pin) ∧ r' = { r with pins := setPins r.pins b vs } := by
  induction b generalizing vs r with
  | nil => simp [setLanes, eq_comm]
  | cons s b ih =>
    obtain _ | ⟨v, vs⟩ := vs
    · cases hlen
    · cases hset : r.setValue s v with
      | ok r₁ =>
        obtain ⟨hpin, rfl⟩ := setValue_eq_ok.1 hset
        rw [setLanes_cons_of_ok hset, ih (Nat.succ.inj hlen)]
        simp [hpin]
      | error e =>
        have hnot : r.wiring.signals[s]? ≠ some .pin := fun hpin =>
          nomatch hset.symm.trans (setValue_eq_ok.2 ⟨hpin, rfl⟩)
        rw [setLanes_cons_of_error hset]
        simp [hnot]

theorem setValue_of_driven {r : Running} {s : SignalId} {dr : Driver} (hs : r.wiring.signals[s]? = some dr) (hdr : dr ≠ .pin)
    (v : Bool) : r.setValue s v = .error .writeToDrivenSignal := by
  unfold Running.setValue
  rw [hs]
  cases dr with
  | pin => exact absurd rfl hdr
  | _ => rfl

/-- The first lane that is not a pin stops the write: it exists, so it has a source. -/
theorem setLanes_of_driven {b : Bus} {vs : List Bool} (hlen : b.length = vs.length) {r : Running}
    (hexists : ∀ s ∈ b, s < r.wiring.signals.length) (hdriven : ∃ s ∈ b, r.wiring.signals[s]? ≠ some .pin) :
    setLanes r b vs = .error .writeToDrivenSignal := by
  induction b generalizing vs r with
  | nil => simp at hdriven
  | cons s b ih =>
    obtain _ | ⟨v, vs⟩ := vs
    · cases hlen
    · have hs := List.getElem?_eq_getElem (hexists s List.mem_cons_self)
      by_cases hpin : r.wiring.signals[s]? = some .pin
      · rw [setLanes_cons_of_ok (setValue_eq_ok.2 ⟨hpin, rfl⟩)]
        exact ih (Nat.succ.inj hlen) (List.forall_mem_cons.1 hexists).2 (by simpa [hpin] using hdriven)
      · exact setLanes_cons_of_error (setValue_of_driven hs (fun h => hpin (hs.trans (congrArg some h))) v) b vs

@[simp] theorem length_bitsOfInt (n : Nat) (v : Int) : (bitsOfInt n v).length = n := by
  induction n generalizing v with
  | zero => rfl
  | succ n ih => simp [bitsOfInt, ih]

theorem writeAsInteger_eq_ok {r r' : Running} {b : Bus} {v : Int} :
    r.writeAsInteger b v = .ok r' ↔
      (∀ s ∈ b, r.wiring.signals[s]? = some .pin) ∧ r' = { r with pins := setPins r.pins b (bitsOfInt b.length v) } :=
  setLanes_eq_ok (length_bitsOfInt ..).symm

end Sys2Proof.Machine
end

section
/-! SUPPORT. A connected Signal and its source (R112, R113, R122). -/

namespace Sys2Proof.Machine

/-- Settles O58: a successful `connect` makes the Signal a wire, no later operation changes that source, and a wire has the value of
its source. -/
theorem connectedSignalMirrorsItsSource : Obligations.ConnectedSignalMirrorsItsSource := by
  unfold Obligations.ConnectedSignalMirrorsItsSource
  refine ⟨fun c s t hpin ht hchain => ?_, fun c c' s t h => ?_, fun m r r' h => ?_⟩
  · have hs : s < c.signals.length := (List.getElem?_eq_some_iff.1 hpin).1
    exact ⟨_, connect_eq_ok.2 ⟨ht, hpin, (reaches_eq_false_iff hs).2 hchain, rfl⟩⟩
  · have hwire := connect_source h
    refine ⟨fun x hx => connect_source_of_ne h hx, ?_, ?_, fun u v c'' h' => connect_keeps_source h' hwire nofun,
      fun m r hr => value_of_wire m (hr.trans hwire)⟩
    all_goals
      obtain ⟨-, -, -, rfl⟩ := connect_eq_ok.1 h
      rfl
  · obtain ⟨p, v, h⟩ | ⟨b, v, h⟩ | h := h
    · obtain ⟨-, rfl⟩ := setValue_eq_ok.1 h
      rfl
    · obtain ⟨-, rfl⟩ := writeAsInteger_eq_ok.1 h
      rfl
    · obtain ⟨contents, -, rfl⟩ := edge_eq_some.1 h
      rfl

end Sys2Proof.Machine
end

section
/-! SUPPORT. A written Bus read as an integer (R120, R121). -/

namespace Sys2Proof.Machine

/-! ### The pins after a Bus was written (R121) -/

theorem pinValue_setPins_of_not_mem {b : Bus} {t : SignalId} (ht : t ∉ b) (pins : List (SignalId × Bool)) (vs : List Bool) :
    pinValue (setPins pins b vs) t = pinValue pins t := by
  induction b generalizing pins vs with
  | nil => rfl
  | cons s b ih =>
    obtain ⟨hne, hb⟩ := List.ne_and_not_mem_of_not_mem_cons ht
    cases vs with
    | nil => rfl
    | cons v vs => rw [setPins_cons, ih hb, pinValue_setPin, if_neg hne.symm]

/-- The lanes of a Bus are distinct, so no lane is overwritten by a later one. -/
theorem map_pinValue_setPins {b : Bus} (hb : b.Nodup) {vs : List Bool} (hlen : b.length = vs.length)
    (pins : List (SignalId × Bool)) : b.map (pinValue (setPins pins b vs)) = vs.map some := by
  induction b generalizing pins vs with
  | nil => simp [List.length_eq_zero_iff.1 hlen.symm]
  | cons s b ih =>
    obtain ⟨hs, hb⟩ := List.nodup_cons.1 hb
    obtain _ | ⟨v, vs⟩ := vs
    · cases hlen
    · have hfirst : pinValue (setPins (setPin pins s v) b vs) s = some v := by
        rw [pinValue_setPins_of_not_mem hs, pinValue_setPin, if_pos rfl]
      rw [setPins_cons, List.map_cons, List.map_cons, hfirst, ih hb (Nat.succ.inj hlen)]

/-- A written Bus settles, lane by lane, to the bits of the integer. -/
theorem map_value_of_writeAsInteger {r r' : Running} {b : Bus} {v : Int} (m : CodeMap) (hb : b.Nodup)
    (h : r.writeAsInteger b v = .ok r') : b.map (r'.value m) = (bitsOfInt b.length v).map some := by
  obtain ⟨hpins, rfl⟩ := writeAsInteger_eq_ok.1 h
  rw [← map_pinValue_setPins hb (length_bitsOfInt ..).symm r.pins]
  exact List.map_congr_left fun s hs => value_of_pin m (hpins s hs)

/-! ### The bits of an integer (R120, R121) -/

theorem allDriven_map_some (vs : List Bool) : allDriven (vs.map some) = some vs := by
  induction vs with
  | nil => rfl
  | cons v vs ih => simp [allDriven, ih]

theorem getElem?_bitsOfInt {n i : Nat} (h : i < n) (v : Int) : (bitsOfInt n v)[i]? = some (decide (v / 2 ^ i % 2 = 1)) := by
  induction n generalizing i v with
  | zero => cases h
  | succ n ih =>
    cases i with
    | zero => simp [bitsOfInt]
    | succ i =>
      rw [bitsOfInt, List.getElem?_cons_succ, ih (Nat.lt_of_succ_lt_succ h), Int.ediv_ediv_of_nonneg (by decide), ← Int.pow_succ']

/-- The bit below a division by two, and what the division leaves. -/
theorem emod_two_pow_succ (n : Nat) (v : Int) : v % 2 ^ (n + 1) = v % 2 + 2 * (v / 2 % 2 ^ n) := by
  rw [Int.pow_succ', Int.emod_def v (2 * 2 ^ n), Int.emod_def (v / 2), Int.emod_def v 2, ← Int.ediv_ediv_of_nonneg (by decide)]
  ring

theorem bitsToNat_bitsOfInt (n : Nat) (v : Int) : (bitsToNat (bitsOfInt n v) : Int) = v % 2 ^ n := by
  induction n generalizing v with
  | zero => simp [bitsOfInt, bitsToNat]
  | succ n ih =>
    have hbit : ((decide (v % 2 = 1)).toNat : Int) = v % 2 := by
      rcases Int.emod_two_eq v with h | h <;> simp [h]
    rw [bitsOfInt, bitsToNat, Nat.cast_add, Nat.cast_mul, ih, hbit, emod_two_pow_succ, Nat.cast_ofNat]

/-- Settles O60: the settled lanes are the bits of v, which the unsigned reading puts together again; a driven lane stops the write,
and pins never do. -/
theorem writeAsIntegerThenRead : Obligations.WriteAsIntegerThenRead := by
  unfold Obligations.WriteAsIntegerThenRead
  refine ⟨fun m r r' b v hb h => ?_, fun r b v => setLanes_of_driven (length_bitsOfInt ..).symm,
    fun r b v hpins => ⟨_, writeAsInteger_eq_ok.2 ⟨hpins, rfl⟩⟩⟩
  have hvalues := map_value_of_writeAsInteger m hb h
  refine ⟨?_, fun i s hs => ?_⟩
  · rw [Running.readUnsigned, Running.busBits, hvalues, allDriven_map_some, Option.map_some, ← bitsToNat_bitsOfInt,
      Int.toNat_natCast]
  · have hi : i < b.length := (List.getElem?_eq_some_iff.1 hs).1
    have hlane := congrArg (·[i]?) hvalues
    simpa [hs, getElem?_bitsOfInt hi] using hlane

end Sys2Proof.Machine
end

section
/-! SUPPORT. The bus-wide gates lane by lane, and their testable properties (R145, R146, R149). -/

namespace Sys2Proof.Machine

variable {n : Nat}

/-! ### One lane of a bus-wide gate (R145, R146) -/

/-- Only NOT needs the lane to be one of the Bus: above the width a bit reads 0, where the gate would answer 1. -/
theorem getLsbD_busNot {i : Nat} (hi : i < n) (x : BitVec n) : (busNot x).getLsbD i = notGate (x.getLsbD i) := by
  rw [busNot, BitVec.getLsbD_not, decide_eq_true hi, Bool.true_and, notGate]

@[simp] theorem getLsbD_busAnd (x y : BitVec n) (i : Nat) : (busAnd x y).getLsbD i = andGate (x.getLsbD i) (y.getLsbD i) :=
  BitVec.getLsbD_and

@[simp] theorem getLsbD_busOr (x y : BitVec n) (i : Nat) : (busOr x y).getLsbD i = orGate (x.getLsbD i) (y.getLsbD i) :=
  BitVec.getLsbD_or

@[simp] theorem getLsbD_busMux (c : Bool) (x y : BitVec n) (i : Nat) :
    (busMux c x y).getLsbD i = muxGate c (x.getLsbD i) (y.getLsbD i) :=
  apply_ite (BitVec.getLsbD · i) ..

/-- Settles O12: each gate's lane by its own lemma. -/
theorem busGatesActLaneByLane : Obligations.BusGatesActLaneByLane := by
  unfold Obligations.BusGatesActLaneByLane
  exact fun _ x y c i hi => ⟨getLsbD_busNot hi x, getLsbD_busAnd x y i, getLsbD_busOr x y i, getLsbD_busMux c x y i⟩

/-! ### The testable properties (R149) -/

theorem toNat_busNot (x : BitVec n) : (busNot x).toNat = 2 ^ n - 1 - x.toNat := BitVec.toNat_not

@[simp] theorem busAnd_self (x : BitVec n) : busAnd x x = x := BitVec.and_self

@[simp] theorem busOr_busNot_self (x : BitVec n) : busOr x (busNot x) = BitVec.allOnes n := BitVec.or_not_self x

@[simp] theorem busMux_self (c : Bool) (x : BitVec n) : busMux c x x = x := ite_self x

/-- The gates a 2-way MUX is made of (R143). -/
theorem muxGate_eq_orGate (c x y : Bool) : muxGate c x y = orGate (andGate (notGate c) x) (andGate c y) := by
  cases c
  · exact (Bool.or_false x).symm
  · rfl

/-- Settles O13: the rows of the truth tables are evaluated, the equations hold for every width by the lemmas above. -/
theorem gatesHaveTheirTruthTables : Obligations.GatesHaveTheirTruthTables := by
  unfold Obligations.GatesHaveTheirTruthTables
  refine ⟨by decide, by decide, by decide, fun x y => ⟨rfl, rfl⟩, muxGate_eq_orGate,
    fun n x c => ⟨toNat_busNot x, busAnd_self x, ?_, busMux_self c x⟩⟩
  rw [busOr_busNot_self, BitVec.toNat_allOnes]

end Sys2Proof.Machine
end

section
/-! SUPPORT. The mux tree as indexing by its control bits (R161, R162), and the jump mux on top of it (R166, R244). -/

namespace Sys2Proof.Machine

/-! ### The unsigned reading of the low control bits (R8) -/

theorem bitsToNat_lt_two_pow_length (bits : List Bool) : bitsToNat bits < 2 ^ bits.length := by
  induction bits with
  | nil => exact Nat.one_pos
  | cons b bits ih =>
    have hb := Bool.toNat_le b
    rw [bitsToNat, List.length_cons, Nat.pow_succ']
    omega

theorem bitsToNat_take_lt (bits : List Bool) (k : Nat) : bitsToNat (bits.take k) < 2 ^ k :=
  (bitsToNat_lt_two_pow_length _).trans_le (Nat.pow_le_pow_right Nat.two_pos (List.length_take_le k bits))

/-- Bit k has weight 2^k; a bit past the end reads 0. -/
theorem bitsToNat_take_succ (bits : List Bool) (k : Nat) :
    bitsToNat (bits.take (k + 1)) = bitsToNat (bits.take k) + 2 ^ k * (bits.getD k false).toNat := by
  induction bits generalizing k with
  | nil => simp
  | cons b bits ih =>
    cases k with
    | zero => simp [bitsToNat]
    | succ k =>
      rw [List.take_succ_cons, List.take_succ_cons, List.getD_cons_succ, bitsToNat, bitsToNat, ih, Nat.pow_succ']
      ring

/-! ### The tree (R161, R162) -/

/-- A tree of height k looks at its low k control bits only: the induction gives both subtrees the whole control list. The root's bit
chooses the half of the data inputs, and an index below 2^k stays in its half. -/
theorem muxTree_eq_getD {k : Nat} {ins : List Bool} (hins : ins.length = 2 ^ k) (ctl : List Bool) :
    muxTree k ctl ins = ins.getD (bitsToNat (ctl.take k)) false := by
  induction k generalizing ins with
  | zero => cases ins <;> rfl
  | succ k ih =>
    have hlow : (ins.take (2 ^ k)).length = 2 ^ k := by rw [List.length_take]; omega
    have hhigh : (ins.drop (2 ^ k)).length = 2 ^ k := by rw [List.length_drop]; omega
    rw [muxTree, ih hlow, ih hhigh, bitsToNat_take_succ]
    cases ctl.getD k false with
    | false => simp [muxGate, List.getD_eq_getElem?_getD, List.getElem?_take_of_lt (bitsToNat_take_lt ctl k)]
    | true => simp [muxGate, List.getD_eq_getElem?_getD, Nat.add_comm]

/-- Settles O10: `muxTree_eq_getD`, where the low k control bits are all of them. -/
theorem muxTreeSelectsTheIndexedInput : Obligations.MuxTreeSelectsTheIndexedInput := by
  unfold Obligations.MuxTreeSelectsTheIndexedInput
  intro k ctl ins hctl hins
  rw [muxTree_eq_getD hins, List.take_of_length_le hctl.le]

/-! ### The jump mux (R166, R244) -/

/-- The wires stand in code order, each one the condition of its code. -/
theorem conditionWires_eq_map (zr ng : Bool) :
    conditionWires zr ng = (List.finRange 8).map fun k => jumpCondition (Jump.ofCode (BitVec.ofFin k)) zr ng := rfl

theorem getD_conditionWires (b : BitVec 3) (zr ng : Bool) :
    (conditionWires zr ng).getD b.toNat false = jumpCondition (Jump.ofCode b) zr ng := by
  have hb : b.toNat < (conditionWires zr ng).length := b.isLt
  rw [List.getD_eq_getElem _ _ hb]
  simp only [conditionWires_eq_map, List.getElem_map, List.getElem_finRange]
  rfl

/-- The three control wires of the jump mux, bit 0 first, spell the code. -/
theorem bitsToNat_getLsbD_three (b : BitVec 3) : bitsToNat [b.getLsbD 0, b.getLsbD 1, b.getLsbD 2] = b.toNat := by
  revert b
  decide

/-- Settles O11: the tree selects the wire at the code's index (O10), and that wire is the code's condition. -/
theorem jumpMuxTreeSelectsTheCondition : Obligations.JumpMuxTreeSelectsTheCondition := by
  unfold Obligations.JumpMuxTreeSelectsTheCondition
  intro b zr ng
  rw [muxTreeSelectsTheIndexedInput 3 _ (conditionWires zr ng) rfl rfl, bitsToNat_getLsbD_three, getD_conditionWires]

end Sys2Proof.Machine
end

section
/-! SUPPORT. The ALU's arithmetic modulo 2^16 (R172) and the flags of a result (R173, R174, R196). -/

namespace Sys2Proof.Machine

/-! ### The arithmetic functions (R172) -/

/-- Inversion is the one arithmetic function that is not a ring operation on words. -/
theorem not_intCast (z : Int) : ~~~(z : Word) = ((65535 - z : Int) : Word) := by
  rw [Int.cast_sub]
  exact (BitVec.allOnes_sub_eq_not _).symm

/-- Reducing modulo 2^16 is a ring homomorphism, so it commutes with every arithmetic function: whichever integers the operands stand
for, the result stands for the exact integer result. -/
theorem aluOut_intCast {f : AluFn} {e : Int → Int → Int} (he : Claims.exactResult f = some e) (x y : Int) :
    aluOut f (x : Word) (y : Word) = (e x y : Word) := by
  cases f with
  | and | or | xor => cases he
  | notX | notY => cases he; exact not_intCast _
  | _ => cases he; simp [aluOut]

theorem toNat_intCast (z : Int) : ((z : Word).toNat : Int) = z % 65536 :=
  (congrArg Nat.cast (BitVec.toNat_ofInt z)).trans (Int.toNat_of_nonneg (Int.emod_nonneg z (by decide)))

theorem intCast_toNat (X : Word) : ((X.toNat : Int) : Word) = X :=
  (BitVec.ofNat_toNat 16 X).trans X.setWidth_eq

theorem intCast_toInt (X : Word) : (X.toInt : Word) = X := BitVec.ofInt_toInt

/-- Settles O7: both readings of an operand reduce to the operand, so `aluOut_intCast` gives the result for each of them. -/
theorem aluFollowsIntegerArithmeticModulo : Obligations.AluFollowsIntegerArithmeticModulo := by
  unfold Obligations.AluFollowsIntegerArithmeticModulo
  refine ⟨fun f X Y e he => ⟨?_, ?_⟩, by decide⟩
  · rw [← toNat_intCast, ← aluOut_intCast he, intCast_toNat, intCast_toNat]
  · rw [← toNat_intCast, ← aluOut_intCast he, intCast_toInt, intCast_toInt]

/-! ### The flags (R173, R174, R196) -/

theorem zeroFlag_iff (out : Word) : zeroFlag out = true ↔ out = 0#16 := beq_iff_eq

/-- A word has no bits from 16 on, so its 16 bits decide whether it is 0. -/
theorem zeroFlag_iff_bits (out : Word) : zeroFlag out = true ↔ ∀ i, i < 16 → out.getLsbD i = false := by
  rw [zeroFlag_iff, BitVec.zero_iff_eq_false]
  exact ⟨fun h i _ => h i, fun h i => (lt_or_ge i 16).elim (h i) (BitVec.getLsbD_of_ge out i)⟩

theorem zeroFlag_iff_toNat (out : Word) : zeroFlag out = true ↔ out.toNat = 0 :=
  (zeroFlag_iff out).trans BitVec.toNat_inj.symm

theorem negativeFlag_iff_toInt (out : Word) : negativeFlag out = true ↔ out.toInt < 0 := by
  rw [negativeFlag_eq_decide, decide_eq_true_iff]

theorem zeroFlag_eq_false_iff (out : Word) : zeroFlag out = false ↔ out ≠ 0#16 :=
  Bool.eq_false_iff.trans (zeroFlag_iff out).not

/-- A result with bit 15 set is not 0 (R196). -/
theorem zeroFlag_of_negativeFlag {out : Word} (h : negativeFlag out = true) : zeroFlag out = false := by
  refine (zeroFlag_eq_false_iff out).2 fun hzero => ?_
  cases hzero
  cases h

/-- Settles O8: the readings of each flag, and the flag pair of a zero, a negative and a positive result. -/
theorem flagsOfAResult : Obligations.FlagsOfAResult := by
  unfold Obligations.FlagsOfAResult
  refine fun out => ⟨zeroFlag_iff_bits out, zeroFlag_iff_toNat out, rfl, negativeFlag_iff_toInt out, ?_, ?_, ?_⟩
  · rintro rfl
    exact ⟨rfl, rfl⟩
  · exact fun hneg => ⟨zeroFlag_of_negativeFlag hneg, hneg⟩
  · exact fun hne hpos => ⟨(zeroFlag_eq_false_iff out).2 hne, hpos⟩

end Sys2Proof.Machine
end

section
/-! SUPPORT. The clocked components: a Register's two cases and a Counter's three, in their priority order (R210 to R217). -/

namespace Sys2Proof.Machine

/-! ### The Register (R211, R213) -/

@[simp] theorem registerNext_of_not_load (current input : Word) : registerNext current input false = current := by
  simp [registerNext_eq]

@[simp] theorem registerNext_of_load (current input : Word) : registerNext current input true = input := by
  simp [registerNext_eq]

/-- Settles O14: the two values of load. -/
theorem registerHoldsOrLoads : Obligations.RegisterHoldsOrLoads := by
  unfold Obligations.RegisterHoldsOrLoads
  exact fun current input => ⟨registerNext_of_not_load current input, registerNext_of_load current input⟩

/-! ### The Counter (R215 to R217) -/

@[simp] theorem counterNext_of_reset (current input : Word) (load : Bool) : counterNext current input load true = 0#16 := by
  simp [counterNext_eq]

@[simp] theorem counterNext_of_load (current input : Word) : counterNext current input true false = input := by
  simp [counterNext_eq]

@[simp] theorem counterNext_of_count (current input : Word) : counterNext current input false false = current + 1#16 := by
  simp [counterNext_eq]

/-- Settles O15: each case by its own lemma; counting is addition of words, which is addition modulo 2^16 and so wraps at 0xFFFF. -/
theorem counterResetsLoadsOrCounts : Obligations.CounterResetsLoadsOrCounts := by
  unfold Obligations.CounterResetsLoadsOrCounts
  refine ⟨counterNext_of_reset, counterNext_of_load, fun current input => ?_, counterNext_of_count 0xFFFF#16⟩
  rw [counterNext_of_count]
  exact BitVec.toNat_add current 1#16

end Sys2Proof.Machine
end

section
/-! SUPPORT. One step by what the fetch and the decoder answer (R231, R252), and what it does to A and D (R240 to R242). -/

namespace Sys2Proof.Machine

/-- An addressing word, a compute word whose code has a function, or a compute word whose code has none (R81, R90). -/
theorem word_format_cases (m : CodeMap) (I : Word) :
    typeBit I = false ∨ (∃ f, typeBit I = true ∧ m.fnOf (controlField I) = some f) ∨
      (typeBit I = true ∧ m.fnOf (controlField I) = none) := by
  cases ht : typeBit I with
  | false => exact .inl rfl
  | true =>
    cases hf : m.fnOf (controlField I) with
    | some f => exact .inr (.inl ⟨f, rfl, rfl⟩)
    | none => exact .inr (.inr ⟨rfl, rfl⟩)

theorem fetch_of_unloaded {s : State} (hpc : s.pc.toNat < s.config.imemWords) (hI : s.imem.find s.pc.toNat = none) :
    fetch s = .unloaded := by
  simp [fetch, hpc, hI]

theorem fetch_of_absent {s : State} (hpc : ¬ s.pc.toNat < s.config.imemWords) : fetch s = .absent := by
  simp [fetch, hpc]

/-- Settles O16: what `step` does with each answer of the fetch and of the decoder. -/
theorem stepIsFetchDecodeExecute : Obligations.StepIsFetchDecodeExecute := by
  unfold Obligations.StepIsFetchDecodeExecute
  refine ⟨fun s I i hpc hI hdec => ?_, fun s I e hpc hI hdec => ?_, fun s hpc hI => ?_, fun s hpc => ?_⟩
  · rw [step_of_word ((fetch_word_iff s I).2 ⟨hpc, hI⟩), hdec]
  · rw [step_of_word ((fetch_word_iff s I).2 ⟨hpc, hI⟩), hdec]
  · rw [step, fetch_of_unloaded hpc hI]
  · rw [step, fetch_of_absent hpc]

/-- Settles O40: an addressing word loads A with itself, its own zero-extended literal; a compute word loads each register by its
dest bit, and a rejected word loads neither. -/
theorem registersChangeAsTheirLoadsSay : Obligations.RegistersChangeAsTheirLoadsSay := by
  unfold Obligations.RegistersChangeAsTheirLoadsSay
  intro s t I hw h
  rw [← typeBit]
  obtain ht | ⟨f, ht, hf⟩ | ⟨ht, hf⟩ := word_format_cases s.config.codeMap I
  · rw [step_addressing hw ht, execAddressing_eq, setWidth_literalField ht] at h
    obtain rfl := Host.Outcome.next.inj h
    simp [ht]
  · rw [step_compute_next hw ht hf h, ofBits_destField]
    simp [ht, hf, computeEdge, registerNext_eq]
  · rw [step_rejected hw ht hf] at h
    obtain rfl := Host.Outcome.next.inj h
    simp [ht, hf]

end Sys2Proof.Machine
end

section
/-! SUPPORT. The CPU step function by instruction format (R250), its outputs (R236 to R239), and a step of the machine as one cycle
of the closed system around it (R252). -/

namespace Sys2Proof.Machine

/-! ### The step function, by format (R250) -/

section
variable {m : CodeMap} {r : CpuRegs} {p : CpuPins} {f : AluFn}

theorem cpuStep_addressing (ht : typeBit p.instruction = false) : cpuStep m r p = cpuAddressing r p := by
  rw [cpuStep, show p.instruction.getLsbD 15 = false from ht]
  rfl

theorem cpuStep_compute (ht : typeBit p.instruction = true) (hf : m.fnOf (controlField p.instruction) = some f) :
    cpuStep m r p = cpuCompute f r p := by
  rw [cpuStep, show p.instruction.getLsbD 15 = true from ht, hf]
  rfl

theorem cpuStep_rejected (ht : typeBit p.instruction = true) (hf : m.fnOf (controlField p.instruction) = none) :
    cpuStep m r p = cpuRejected r p := by
  rw [cpuStep, show p.instruction.getLsbD 15 = true from ht, hf]
  rfl

end

/-- The list of R250 is the list of the mux tree's wires, so it holds each code's condition at that code. -/
theorem getD_conditions (b : BitVec 3) (zr ng : Bool) :
    (conditions zr ng).getD b.toNat false = jumpCondition (Jump.ofCode b) zr ng :=
  getD_conditionWires b zr ng

/-- Settles O55: the outputs of each of the three formats. -/
theorem outputsMirrorRegistersAndResult : Obligations.OutputsMirrorRegistersAndResult := by
  unfold Obligations.OutputsMirrorRegistersAndResult
  intro m r p
  rw [← typeBit]
  obtain ht | ⟨f, ht, hf⟩ | ⟨ht, hf⟩ := word_format_cases m p.instruction
  · rw [cpuStep_addressing ht]
    simp [cpuAddressing, ht]
  · rw [cpuStep_compute ht hf]
    simp [cpuCompute, ht, hf]
  · rw [cpuStep_rejected ht hf]
    simp [cpuRejected, hf]

/-! ### A step as a cycle of the closed system around the CPU (R252) -/

/-- A clock edge is the closed system around any CPU cycle that loads the same registers, asks for the same store and reports
nothing. -/
theorem afterCpu_eq_clockEdge {s : State} {c : CpuCycle} {e : EdgeInputs}
    (ha : c.next.a = registerNext s.a e.aInput e.aLoad) (hd : c.next.d = registerNext s.d e.dInput e.dLoad)
    (hpc : c.next.pc = counterNext s.pc s.a e.pcLoad s.resetPin) (haddress : c.outputs.memoryAddress = s.a)
    (hwrite : c.outputs.memoryWrite = e.write) (hstore : c.outputs.memoryOutput = e.store) (hreport : c.report = none) :
    s.afterCpu c = clockEdge e s := by
  simp only [State.afterCpu, clockEdge, ha, hd, hpc, haddress, hwrite, hstore, hreport]
  cases e.write <;> rfl

section
variable (s : State) (I : Word) (f : AluFn)

theorem afterCpu_cpuAddressing :
    s.afterCpu (cpuAddressing s.cpuRegs (s.cpuPins I)) =
      { s with a := I, pc := if s.resetPin then 0#16 else s.pc + 1#16, resetPins := s.resetPins.tail } := rfl

theorem afterCpu_cpuRejected : s.afterCpu (cpuRejected s.cpuRegs (s.cpuPins I)) = rejectCycle I s := rfl

theorem afterCpu_cpuCompute :
    s.afterCpu (cpuCompute f s.cpuRegs (s.cpuPins I)) =
      clockEdge (computeEdge (Claims.wordResult f I s) (Dest.ofBits (destField I)) (Jump.ofCode (jumpField I))) s := by
  rw [ofBits_destField, computeEdge, jumpTaken, ← getD_conditions]
  exact afterCpu_eq_clockEdge rfl rfl rfl rfl rfl rfl rfl

end

/-- Settles O53: each format's meaning is the closed system around that format of the step function; the data cell is there for a
compute word that reads or stores it. -/
theorem stepRefinesTheCpuStepFunction : Obligations.StepRefinesTheCpuStepFunction := by
  unfold Obligations.StepRefinesTheCpuStepFunction
  intro s I hw hcell
  obtain ht | ⟨f, ht, hf⟩ | ⟨ht, hf⟩ := word_format_cases s.config.codeMap I
  · rw [step_addressing hw ht, execAddressing_eq, setWidth_literalField ht, cpuStep_addressing (p := s.cpuPins I) ht,
      afterCpu_cpuAddressing]
  · rw [step_compute hw ht hf, computeCycle_of_available _ fun _ => hcell, aluOut_yWord_eq_wordResult,
      cpuStep_compute (p := s.cpuPins I) ht hf, afterCpu_cpuCompute]
  · rw [step_rejected hw ht hf, cpuStep_rejected (p := s.cpuPins I) ht hf, afterCpu_cpuRejected]

end Sys2Proof.Machine
end

section
/-! SUPPORT. The decode network of the wired CPU, settled and clocked, by instruction format (R232 to R249). -/

namespace Sys2Proof.Machine

section
variable {m : CodeMap} {f : AluFn}

theorem alu_of_fnOf {control : BitVec 5} (hf : m.fnOf control = some f) (X Y : Word) :
    alu m control X Y = { out := aluOut f X Y, zr := zeroFlag (aluOut f X Y), ng := negativeFlag (aluOut f X Y) } := by
  rw [alu, hf]

variable {p : CpuPins} (r : CpuRegs)

/-! ### The settled network (R249) -/

/-- The mux tree selects the condition of the jump field on the ALU's flags (R244). -/
theorem settleWires_cond :
    (settleWires m r p).cond =
      jumpCondition (Jump.ofCode (jumpField p.instruction)) (settleWires m r p).alu.zr (settleWires m r p).alu.ng := by
  rw [← jumpMuxTreeSelectsTheCondition]
  simp [settleWires, jumpField]

/-- Type 0 loads A from the Instruction bus and holds off every other load and the store. -/
theorem settleWires_addressing (ht : typeBit p.instruction = false) :
    settleWires m r p =
      { settleWires m r p with
        rejected := false, enabled := false, aInput := p.instruction, aLoad := true, dLoad := false, memoryWrite := false
        pcLoad := false } := by
  simp [settleWires, rejectedSignal, andGate, orGate, notGate, busMux, ht]

/-- A rejected word holds off every load and the store (R248). -/
theorem settleWires_rejected (ht : typeBit p.instruction = true) (hf : m.fnOf (controlField p.instruction) = none) :
    settleWires m r p =
      { settleWires m r p with
        rejected := true, enabled := false, aLoad := false, dLoad := false, memoryWrite := false, pcLoad := false } := by
  simp [settleWires, rejectedSignal, andGate, orGate, notGate, ht, hf]

/-- The ALU's inputs in a compute cycle are D and, by bit 11, MemoryInput or A (R233, R234). -/
theorem settleWires_alu (ht : typeBit p.instruction = true) (hf : m.fnOf (controlField p.instruction) = some f) :
    (settleWires m r p).alu =
      let out := aluOut f r.d (if p.instruction.getLsbD 11 then p.memoryInput else r.a)
      { out := out, zr := zeroFlag out, ng := negativeFlag out } := by
  simp [settleWires, andGate, busMux, aBit, ht, alu_of_fnOf hf]

/-- A compute word whose code has a function loads each register by its dest bit and the PC by its jump condition. -/
theorem settleWires_compute (ht : typeBit p.instruction = true) (hf : m.fnOf (controlField p.instruction) = some f) :
    settleWires m r p =
      { settleWires m r p with
        rejected := false, enabled := true, aInput := (settleWires m r p).alu.out, aLoad := p.instruction.getLsbD 5
        dLoad := p.instruction.getLsbD 4, memoryWrite := p.instruction.getLsbD 3
        pcLoad := (settleWires m r p).cond } := by
  simp [settleWires, rejectedSignal, andGate, orGate, notGate, busMux, ht, hf]

/-! ### The cycle -/

/-- The same cycle with another word on MemoryOutput. -/
def CpuCycle.withMemoryOutput (c : CpuCycle) (out : Word) : CpuCycle :=
  { c with outputs := { c.outputs with memoryOutput := out } }

theorem wiredCycle_addressing (ht : typeBit p.instruction = false) :
    wiredCycle m r p = (cpuAddressing r p).withMemoryOutput (settleWires m r p).alu.out := by
  rw [wiredCycle, settleWires_addressing r ht]
  rfl

/-- The Counter would step; the mux in front of the PC keeps it, but for Reset (R322, R326). -/
theorem wiredCycle_rejected (ht : typeBit p.instruction = true) (hf : m.fnOf (controlField p.instruction) = none) :
    wiredCycle m r p = (cpuRejected r p).withMemoryOutput (settleWires m r p).alu.out := by
  rw [wiredCycle, settleWires_rejected r ht hf]
  cases hreset : p.reset <;> simp [cpuRejected, CpuCycle.withMemoryOutput, andGate, notGate, busMux, hreset]

theorem wiredCycle_compute (ht : typeBit p.instruction = true) (hf : m.fnOf (controlField p.instruction) = some f) :
    wiredCycle m r p = cpuCompute f r p := by
  rw [wiredCycle, settleWires_compute r ht hf]
  simp only [settleWires_cond, settleWires_alu r ht hf, ← getD_conditions]
  rfl

end

/-- In every cycle the wired CPU is the step function of R250 but for MemoryOutput, which is the ALU's output. -/
theorem wiredCycle_eq_cpuStep (m : CodeMap) (r : CpuRegs) (p : CpuPins) :
    wiredCycle m r p = (cpuStep m r p).withMemoryOutput (settleWires m r p).alu.out := by
  obtain ht | ⟨f, ht, hf⟩ | ⟨ht, hf⟩ := word_format_cases m p.instruction
  · rw [wiredCycle_addressing r ht, cpuStep_addressing ht]
  · rw [wiredCycle_compute r ht hf, cpuStep_compute ht hf, settleWires_alu r ht hf]
    rfl
  · rw [wiredCycle_rejected r ht hf, cpuStep_rejected ht hf]

/-- Settles O54: `wiredCycle_eq_cpuStep`, and for MemoryOutput the compute cycle, where the two agree whole. -/
theorem wiredCpuRefinesTheStepFunction : Obligations.WiredCpuRefinesTheStepFunction := by
  unfold Obligations.WiredCpuRefinesTheStepFunction
  intro m r p
  have hcycle := wiredCycle_eq_cpuStep m r p
  refine ⟨congrArg (·.next) hcycle, congrArg (·.report) hcycle, congrArg (·.outputs.memoryAddress) hcycle,
    congrArg (·.outputs.memoryWrite) hcycle, congrArg (·.outputs.instructionAddress) hcycle, fun ht hsome => ?_⟩
  obtain ⟨f, hf⟩ := Option.isSome_iff_exists.1 hsome
  rw [wiredCycle_compute r ht hf, cpuStep_compute ht hf]

end Sys2Proof.Machine
end

section
/-! SUPPORT. The clock edge of a compute cycle in the spec's own words (R271): what it commits, what it leaves (R290), and the next PC
of every cycle (R307). -/

namespace Sys2Proof.Machine

/-- Word addition is modulo 2^16, so at 0xFFFF it wraps as the spec's + 1 does. -/
theorem add_one_eq_ofNat (X : Word) : X + 1#16 = BitVec.ofNat 16 (X.toNat + 1) := BitVec.add_def X 1#16

section
variable {s : State} {e : EdgeInputs}

/-! ### What an edge leaves in the memories (R52, R62) -/

theorem clockEdge_read_dmem_of_ne {x : Word} (hx : e.write = true → x ≠ s.a) : (clockEdge e s).dmem.read x = s.dmem.read x := by
  rw [clockEdge_dmem]
  split
  next hwrite => exact Memory.read_write_other s.dmem e.store (hx hwrite).symm
  next => rfl

theorem clockEdge_find_imem_of_ne {n : Nat} (hn : e.write = true → s.config.unifiedMemory = true → n ≠ s.a.toNat) :
    (clockEdge e s).imem.find n = s.imem.find n := by
  rw [clockEdge_imem]
  split
  next hstore =>
    obtain ⟨hwrite, hunified⟩ := Bool.and_eq_true_iff.1 hstore
    rw [Memory.find_put, if_neg (hn hwrite hunified).symm]
  next => rfl

end

/-! ### The edge of a compute cycle (R271) -/

/-- The edge of a compute cycle commits what R271 says; the flags decide the jump as the signed comparison does. -/
theorem clockEdge_computeEdge (out : Word) (dst : Dest) (j : Jump) (s : State) :
    clockEdge (computeEdge out dst j) s = Claims.afterCompute out dst j s := by
  simp only [clockEdge, computeEdge, Claims.afterCompute, registerNext_eq, counterNext_eq, jumpTaken_eq_comparesWithZero,
    add_one_eq_ofNat]
  cases dst.toM <;> rfl

theorem yWord_eq_operandYWord (y : YSource) (s : State) : yWord y s = Claims.operandYWord y s := by
  cases y <;> rfl

/-- A compute instruction whose data cell is there completes as R271 says. -/
theorem exec_compute_of_available {f : AluFn} {y : YSource} {dst : Dest} {s : State} (j : Jump) (h : CellAvailable f y dst s) :
    exec (Instr.compute f y dst j) s =
      .next (Claims.afterCompute (aluOut f s.d (Claims.operandYWord y s)) dst j s) := by
  rw [exec_compute, computeCycle_of_available j h, clockEdge_computeEdge, yWord_eq_operandYWord]

/-- Settles O37: the instruction is one clock edge, which loads A and D by their dest bits and stores at the old A alone. -/
theorem computeInstructionsFrame : Obligations.ComputeInstructionsFrame := by
  unfold Obligations.ComputeInstructionsFrame
  intro f y dst j s t h
  rw [exec_compute] at h
  obtain ⟨-, rfl⟩ := computeCycle_next h
  refine ⟨fun ha => ?_, fun hd => ?_, fun x hx => clockEdge_read_dmem_of_ne hx, fun n hn => clockEdge_find_imem_of_ne hn,
    clockEdge_reports .., clockEdge_config .., clockEdge_resetPins ..⟩
  · simp [computeEdge, ha]
  · simp [computeEdge, hd]

/-- Settles O39: an addressing word steps the PC, a compute word with a function leaves it as R271 says, and a rejected word holds it. -/
theorem nextPcOfEveryStep : Obligations.NextPcOfEveryStep := by
  unfold Obligations.NextPcOfEveryStep
  intro s t I hw h
  rw [← typeBit]
  obtain ht | ⟨f, ht, hf⟩ | ⟨ht, hf⟩ := word_format_cases s.config.codeMap I
  · rw [step_addressing hw ht, execAddressing_eq] at h
    obtain rfl := Host.Outcome.next.inj h
    simp [ht, add_one_eq_ofNat]
  · rw [step_compute_next hw ht hf h, clockEdge_computeEdge]
    simp [ht, hf, Claims.afterCompute]
  · rw [step_rejected hw ht hf] at h
    obtain rfl := Host.Outcome.next.inj h
    simp [ht, hf]

/-! ### The addressing instruction (R270) -/

theorem encode_addressing (v : BitVec 15) : encode (.addressing v) = some (v.setWidth 16) :=
  congrArg some (BitVec.setWidth_eq_append (by decide)).symm

/-- Settles O17: its word is format A, and its edge is the whole next state. -/
theorem addressingLoadsALiteral : Obligations.AddressingLoadsALiteral := by
  unfold Obligations.AddressingLoadsALiteral
  intro v s
  refine ⟨encode_addressing v, ?_⟩
  rw [exec_addressing, execAddressing_eq, add_one_eq_ofNat]

/-- Settles O38: the next state differs from the old one in A, the PC and the Reset levels only. -/
theorem addressingFrame : Obligations.AddressingFrame := by
  unfold Obligations.AddressingFrame
  intro v s t h
  rw [exec_addressing, execAddressing_eq] at h
  obtain rfl := Host.Outcome.next.inj h
  exact ⟨rfl, fun _ => rfl, fun _ => rfl, rfl, rfl, rfl⟩

end Sys2Proof.Machine
end

section
/-! SUPPORT. The eighteen compute instructions (R272 to R289): each one's code in the default map, its result in the spec's words, and
its completion. -/

namespace Sys2Proof.Machine

/-! ### The result of an arithmetic function as a reduced integer (R172) -/

theorem aluOut_eq_ofInt {f : AluFn} {X Y : Word} {z : Int} (hz : (Claims.exactResult f).map (· X.toNat Y.toNat) = some z) :
    aluOut f X Y = BitVec.ofInt 16 z := by
  obtain ⟨e, he, rfl⟩ := Option.map_eq_some_iff.1 hz
  have h := aluOut_intCast he X.toNat Y.toNat
  rw [intCast_toNat, intCast_toNat] at h
  exact h

/-- 65535 - uval(X) never borrows, so inversion needs no reduction (R278). -/
theorem not_eq_ofNat (X : Word) : ~~~X = BitVec.ofNat 16 (65535 - X.toNat) := by
  rw [← BitVec.toNat_inj, BitVec.toNat_not, BitVec.toNat_ofNat]
  omega

/-! ### The result of a boolean function, lane by lane (R192 to R194) -/

theorem getLsbD_laneWise (g : Bool → Bool → Bool) (x y : Word) {i : Nat} (hi : i < 16) :
    (Claims.laneWise g x y).getLsbD i = g (x.getLsbD i) (y.getLsbD i) := by
  rw [Claims.laneWise, BitVec.getLsbD_ofFnLE, dif_pos hi]

theorem eq_laneWise {g : Bool → Bool → Bool} {out x y : Word} (h : ∀ i, out.getLsbD i = g (x.getLsbD i) (y.getLsbD i)) :
    out = Claims.laneWise g x y := by
  apply BitVec.eq_of_getLsbD_eq
  intro i hi
  rw [getLsbD_laneWise g x y hi, h]

/-! ### Encoding and completion, once for all functions (R94, R271) -/

theorem encode_compute {f : AluFn} {c : BitVec 5} (hc : aluCodeMap.codeOf f = some c) (y : YSource) (dst : Dest) (j : Jump) :
    encode (Instr.compute f y dst j) = some (computeWord y.bit c dst.bits j.code) := by
  rw [encode, encodeWith_compute, encodeCompute, hc, Option.map_some]

section
variable {f : AluFn} {c : BitVec 5} {y : YSource} {dst : Dest} {s : State} {out : Word}

/-- The cell that a = 1 or the store names is there, so whatever the function reads is there. -/
theorem cellAvailable_of_mem_or_toM (h : y = .mem ∨ dst.toM = true → s.a.toNat < s.config.dmemWords) : CellAvailable f y dst s := by
  rintro (huses | hstores)
  · cases y with
    | regA => cases huses
    | mem => exact h (.inl rfl)
  · exact h (.inr hstores)

/-- A function that does not read Y needs the cell for its store only (R91). -/
theorem cellAvailable_of_not_readsY (hf : readsY f = false) (h : dst.toM = true → s.a.toNat < s.config.dmemWords) :
    CellAvailable f y dst s := by
  rintro (huses | hstores)
  · cases y with
    | regA => cases huses
    | mem => cases hf.symm.trans huses
  · exact h hstores

variable (hc : aluCodeMap.codeOf f = some c) (j : Jump) (hout : aluOut f s.d (Claims.operandYWord y s) = out)
include hc hout

/-- A compute instruction has its word, and it completes with its result if the cell that a = 1 or the store names is there. -/
theorem compute_completes :
    encode (Instr.compute f y dst j) = some (computeWord y.bit c dst.bits j.code) ∧
    ((y = .mem ∨ dst.toM = true → s.a.toNat < s.config.dmemWords) →
      exec (Instr.compute f y dst j) s = .next (Claims.afterCompute out dst j s)) :=
  ⟨encode_compute hc y dst j, fun h => hout ▸ exec_compute_of_available j (cellAvailable_of_mem_or_toM h)⟩

/-- The same for a function that ignores its a bit (R91): only the store needs the cell. -/
theorem compute_completes_of_not_readsY (hf : readsY f = false) :
    encode (Instr.compute f y dst j) = some (computeWord y.bit c dst.bits j.code) ∧
    ((dst.toM = true → s.a.toNat < s.config.dmemWords) →
      exec (Instr.compute f y dst j) s = .next (Claims.afterCompute out dst j s)) :=
  ⟨encode_compute hc y dst j, fun h => hout ▸ exec_compute_of_available j (cellAvailable_of_not_readsY hf h)⟩

end

/-! ### The instructions, in the order of the table -/

/-- Settles O18: the result is the constant itself. -/
theorem zeroCompletes : Obligations.ZeroCompletes := by
  unfold Obligations.ZeroCompletes
  exact fun y dst j s => compute_completes_of_not_readsY (f := .zero) rfl j rfl rfl

/-- Settles O19: the result is the constant itself. -/
theorem oneCompletes : Obligations.OneCompletes := by
  unfold Obligations.OneCompletes
  exact fun y dst j s => compute_completes_of_not_readsY (f := .one) rfl j rfl rfl

/-- Settles O20: the result is the operand itself. -/
theorem passXCompletes : Obligations.PassXCompletes := by
  unfold Obligations.PassXCompletes
  exact fun y dst j s => compute_completes_of_not_readsY (f := .passX) rfl j rfl rfl

/-- Settles O21: the result is the operand itself. -/
theorem passYCompletes : Obligations.PassYCompletes := by
  unfold Obligations.PassYCompletes
  exact fun y dst j s => compute_completes (f := .passY) rfl j rfl

/-- Settles O22: `aluOut_eq_ofInt` at the exact result of negX. -/
theorem negXCompletes : Obligations.NegXCompletes := by
  unfold Obligations.NegXCompletes
  exact fun y dst j s => compute_completes_of_not_readsY (f := .negX) rfl j (aluOut_eq_ofInt rfl) rfl

/-- Settles O23: `aluOut_eq_ofInt` at the exact result of negY. -/
theorem negYCompletes : Obligations.NegYCompletes := by
  unfold Obligations.NegYCompletes
  exact fun y dst j s => compute_completes (f := .negY) rfl j (aluOut_eq_ofInt rfl)

/-- Settles O24: `not_eq_ofNat` at D. -/
theorem notXCompletes : Obligations.NotXCompletes := by
  unfold Obligations.NotXCompletes
  exact fun y dst j s => compute_completes_of_not_readsY (f := .notX) rfl j (not_eq_ofNat s.d) rfl

/-- Settles O25: `not_eq_ofNat` at Y. -/
theorem notYCompletes : Obligations.NotYCompletes := by
  unfold Obligations.NotYCompletes
  exact fun y dst j s => compute_completes (f := .notY) rfl j (not_eq_ofNat (Claims.operandYWord y s))

/-- Settles O26: `add_one_eq_ofNat` at D. -/
theorem incXCompletes : Obligations.IncXCompletes := by
  unfold Obligations.IncXCompletes
  exact fun y dst j s => compute_completes_of_not_readsY (f := .incX) rfl j (add_one_eq_ofNat s.d) rfl

/-- Settles O27: `add_one_eq_ofNat` at Y. -/
theorem incYCompletes : Obligations.IncYCompletes := by
  unfold Obligations.IncYCompletes
  exact fun y dst j s => compute_completes (f := .incY) rfl j (add_one_eq_ofNat (Claims.operandYWord y s))

/-- Settles O28: `aluOut_eq_ofInt` at the exact result of decX. -/
theorem decXCompletes : Obligations.DecXCompletes := by
  unfold Obligations.DecXCompletes
  exact fun y dst j s => compute_completes_of_not_readsY (f := .decX) rfl j (aluOut_eq_ofInt rfl) rfl

/-- Settles O29: `aluOut_eq_ofInt` at the exact result of decY. -/
theorem decYCompletes : Obligations.DecYCompletes := by
  unfold Obligations.DecYCompletes
  exact fun y dst j s => compute_completes (f := .decY) rfl j (aluOut_eq_ofInt rfl)

/-- Settles O30: addition of words is addition of their unsigned readings, reduced. -/
theorem addCompletes : Obligations.AddCompletes := by
  unfold Obligations.AddCompletes
  exact fun y dst j s => compute_completes (f := .add) rfl j (BitVec.add_def s.d _)

/-- Settles O31: `aluOut_eq_ofInt` at the exact result of subXY, D less Y. -/
theorem subXYCompletes : Obligations.SubXYCompletes := by
  unfold Obligations.SubXYCompletes
  exact fun y dst j s => compute_completes (f := .subXY) rfl j (aluOut_eq_ofInt rfl)

/-- Settles O32: `aluOut_eq_ofInt` at the exact result of subYX, Y less D. -/
theorem subYXCompletes : Obligations.SubYXCompletes := by
  unfold Obligations.SubYXCompletes
  exact fun y dst j s => compute_completes (f := .subYX) rfl j (aluOut_eq_ofInt rfl)

/-- Settles O33: one lane of a word AND is the AND of the lanes. -/
theorem andCompletes : Obligations.AndCompletes := by
  unfold Obligations.AndCompletes
  exact fun y dst j s => compute_completes (f := .and) rfl j (eq_laneWise fun _ => BitVec.getLsbD_and)

/-- Settles O34: one lane of a word OR is the OR of the lanes. -/
theorem orCompletes : Obligations.OrCompletes := by
  unfold Obligations.OrCompletes
  exact fun y dst j s => compute_completes (f := .or) rfl j (eq_laneWise fun _ => BitVec.getLsbD_or)

/-- Settles O35: one lane of a word XOR is 1 exactly when the two lanes differ. -/
theorem xorCompletes : Obligations.XorCompletes := by
  unfold Obligations.XorCompletes
  exact fun y dst j s => compute_completes (f := .xor) rfl j (eq_laneWise fun _ => BitVec.getLsbD_xor)

end Sys2Proof.Machine
end

section
/-! SUPPORT. A rejected cycle as the reserved rows and the step take it, and a run that stays on a rejected word (R322, R328). -/

namespace Sys2Proof.Machine

/-- Settles O36: each reserved row is one rejected cycle. -/
theorem reservedRowsAreRejected : Obligations.ReservedRowsAreRejected := by
  unfold Obligations.ReservedRowsAreRejected
  rintro w s i (rfl | rfl | rfl)
  · exact exec_reserved18to19 w s
  · exact exec_reserved20to23 w s
  · exact exec_reserved24to31 w s

section
variable {s : State} {I : Word}

theorem step_of_isRejected (hw : fetch s = .word I) (hI : isRejected s.config.codeMap I = true) :
    step s = .next (rejectCycle I s) := by
  obtain ⟨ht, hf⟩ := Bool.and_eq_true_iff.1 hI
  exact step_rejected hw ht (Option.isNone_iff_eq_none.1 hf)

theorem resetPin_of_forall_false (h : ∀ b ∈ s.resetPins, b = false) : s.resetPin = false := by
  unfold State.resetPin
  cases hp : s.resetPins with
  | nil => rfl
  | cons b levels => exact h b (hp ▸ List.mem_cons_self)

/-- Without Reset a rejected cycle only uses up one Reset level and reports. -/
theorem rejectCycle_of_not_reset (h : s.resetPin = false) :
    rejectCycle I s = { s with resetPins := s.resetPins.tail, reports := ⟨I, s.pc⟩ :: s.reports } := by
  simp [rejectCycle, h]

/-- A run on a rejected word with Reset at 0, whole: the next fetch answers the same word, so every cycle is the same again. -/
theorem run_of_isRejected (n : Nat) (hw : fetch s = .word I) (hI : isRejected s.config.codeMap I = true)
    (hreset : ∀ b ∈ s.resetPins, b = false) :
    Host.Core.run Sys2Proof.core n s =
      .next { s with resetPins := s.resetPins.drop n, reports := List.replicate n ⟨I, s.pc⟩ ++ s.reports } := by
  induction n generalizing s with
  | zero => rfl
  | succ n ih =>
    have hstep := step_of_isRejected hw hI
    rw [rejectCycle_of_not_reset (resetPin_of_forall_false hreset)] at hstep
    rw [run_next Sys2Proof.core n hstep]
    refine (ih (s := { s with resetPins := s.resetPins.tail, reports := ⟨I, s.pc⟩ :: s.reports }) hw hI
      fun b hb => hreset b (List.mem_of_mem_tail hb)).trans ?_
    simp [List.replicate_succ']

end

/-- Settles O46: `run_of_isRejected` gives the whole state after n steps. -/
theorem rejectedWordHoldsTheMachine : Obligations.RejectedWordHoldsTheMachine := by
  unfold Obligations.RejectedWordHoldsTheMachine
  intro n s I hw hI hreset
  exact ⟨_, run_of_isRejected n hw hI hreset, rfl, rfl, rfl, rfl, rfl, rfl, rfl⟩

end Sys2Proof.Machine
end

section
/-! SUPPORT. The reports of a run: each step keeps the older ones (R322, R364). -/

namespace Sys2Proof.Machine

/-- A run that answers a state answered one after its first step. -/
theorem run_succ_eq_next {M : Host.Core} {n : Nat} {s t : M.State} (h : M.run (n + 1) s = .next t) :
    ∃ u, M.step s = .next u ∧ M.run n u = .next t := by
  cases hs : M.step s with
  | next u => exact ⟨u, rfl, run_next M n hs ▸ h⟩
  | fault r => cases (run_fault M n hs).symm.trans h
  | refused r => cases (run_refused M n hs).symm.trans h

/-- A clock edge reports nothing, and a rejected cycle puts its report before the others. -/
theorem step_reports_suffix {s t : State} (h : step s = .next t) : s.reports <:+ t.reports := by
  obtain ⟨e, rfl⟩ | ⟨I, rfl⟩ := step_next_eq_clockEdge_or_rejectCycle h
  · exact clockEdge_reports s e ▸ List.suffix_rfl
  · exact List.suffix_cons ⟨I, s.pc⟩ s.reports

theorem run_reports_suffix {n : Nat} {s t : State} (h : Host.Core.run Sys2Proof.core n s = .next t) :
    s.reports <:+ t.reports := by
  induction n generalizing s with
  | zero =>
    obtain rfl := Host.Outcome.next.inj h
    exact List.suffix_rfl
  | succ n ih =>
    obtain ⟨u, hstep, hrun⟩ := run_succ_eq_next h
    exact (step_reports_suffix hstep).trans (ih hrun)

/-- Settles O47: the reports of the start are the end of those after the run, so the latter are not empty if the former are not. -/
theorem reportsAreKept : Obligations.ReportsAreKept := by
  unfold Obligations.ReportsAreKept
  refine ⟨fun n s t h => ?_, fun n s t hfault hsuccess => ?_⟩
  · obtain ⟨newer, hnewer⟩ := run_reports_suffix h
    exact ⟨newer, hnewer.symm⟩
  · obtain ⟨hrun, hnone⟩ := hsuccess
    have hsuffix := run_reports_suffix hrun
    rw [hnone] at hsuffix
    exact hfault (List.suffix_nil.1 hsuffix)

end Sys2Proof.Machine
end

section
/-! SUPPORT. A step where every data address has its cell (R65), and a step under another Reset level (R350, R351). -/

namespace Sys2Proof.Machine

/-- Settles O50: the data cell at A exists, and then the step is a whole cycle of the closed system. -/
theorem stepCompletesOnTheDefaultSizes : Obligations.StepCompletesOnTheDefaultSizes := by
  unfold Obligations.StepCompletesOnTheDefaultSizes
  intro s I hw hsize
  have hcell : s.a.toNat < s.config.dmemWords := Nat.lt_of_lt_of_le s.a.isLt hsize
  exact ⟨_, stepRefinesTheCpuStepFunction s I hw hcell⟩

/-- Reset reaches the PC alone (R247): of the rest of the edge nothing depends on it. -/
theorem clockEdge_reset (e : EdgeInputs) (s : State) (levels : List Bool) :
    clockEdge e { s with resetPins := true :: levels } =
      { clockEdge e { s with resetPins := false :: levels } with pc := 0#16 } := by
  unfold clockEdge
  cases e.write <;> rfl

theorem rejectCycle_reset (I : Word) (s : State) (levels : List Bool) :
    rejectCycle I { s with resetPins := true :: levels } =
      { rejectCycle I { s with resetPins := false :: levels } with pc := 0#16 } := rfl

/-- Settles O44: the fetch, the decoder and the operands do not look at the Reset pin, and an edge takes it to the PC only. -/
theorem resetReplacesOnlyThePc : Obligations.ResetReplacesOnlyThePc := by
  unfold Obligations.ResetReplacesOnlyThePc
  intro s t levels h
  obtain ⟨I, hw, hI⟩ := step_cases h
  have hw' : fetch { s with resetPins := true :: levels } = .word I := hw
  obtain ⟨ht, haddr⟩ | ⟨f, ht, hf, hcomp⟩ | ⟨ht, hf, rfl⟩ := hI
  · obtain rfl := Host.Outcome.next.inj haddr
    rw [step_addressing hw' ht]
    exact congrArg Host.Outcome.next (clockEdge_reset _ s levels)
  · obtain ⟨hcell, rfl⟩ := computeCycle_next hcomp
    have hcell' : CellAvailable f _ _ { s with resetPins := true :: levels } := hcell
    rw [step_compute hw' ht hf, computeCycle_of_available _ hcell']
    exact congrArg Host.Outcome.next (clockEdge_reset _ s levels)
  · rw [step_rejected hw' ht hf, rejectCycle_reset]

end Sys2Proof.Machine
end

section
/-! SUPPORT. The configuration errors by their causes (R323). -/

namespace Sys2Proof.Machine

/-! ### Widths (R119, R147) -/

section
variable {b b' : Bus} (hwidth : b.length ≠ b'.length) (c : Circuit)
include hwidth

theorem connectBus_of_ne_width : c.connectBus b b' = .error .widthMismatch := if_neg hwidth

theorem addBusGate_of_ne_width (add : Circuit → SignalId → SignalId → Except ConfigurationError (Circuit × SignalId)) :
    addBusGate add c b b' = .error .widthMismatch := if_neg hwidth

end

/-! ### connect (R111, R123) -/

section
variable {c : Circuit} {s t : SignalId} (ht : t < c.signals.length)
include ht

/-- The source that is there is found before any chain is looked for. -/
theorem connect_of_driven {dr : Driver} (hs : c.signals[s]? = some dr) (hdr : dr ≠ .pin) :
    c.connect s t = .error .alreadyConnected := by
  rw [Circuit.connect, if_pos ht, hs]
  cases dr with
  | pin => exact absurd rfl hdr
  | _ => rfl

theorem connect_of_chain (hs : c.signals[s]? = some .pin) (hchain : Relation.ReflTransGen (Claims.feeds c) s t) :
    c.connect s t = .error .combinationalCycle := by
  have hreaches : c.reaches c.signals.length s t ≠ false := fun hno =>
    (reaches_eq_false_iff (List.getElem?_eq_some_iff.1 hs).1).1 hno hchain
  simp [Circuit.connect, ht, hs, hreaches]

end

/-! ### Mux trees and indices (R163, R118) -/

theorem addMuxTree_of_ne_inputCount {ctl ins : Bus} (h : ins.length ≠ 2 ^ ctl.length) (c : Circuit) :
    c.addMuxTree ctl ins = .error .muxTreeInputCount := if_neg h

theorem busIndex_of_length_le {b : Bus} {i : Nat} (h : b.length ≤ i) : busIndex b i = .error .indexOutOfRange := by
  rw [busIndex, List.getElem?_eq_none h]

/-- Settles O59: each error by its own cause; the three bus-wide gates share one check of the widths. -/
theorem configurationErrorsAreRaised : Obligations.ConfigurationErrorsAreRaised := by
  unfold Obligations.ConfigurationErrorsAreRaised
  refine ⟨fun c b b' hwidth => ?_, fun r s dr v hs hdr => setValue_of_driven hs hdr v,
    fun c s t dr hs hdr ht => connect_of_driven ht hs hdr, fun c ctl ins h => addMuxTree_of_ne_inputCount h c,
    fun c s t hs ht hchain => connect_of_chain ht hs hchain, fun b i h => busIndex_of_length_le h⟩
  exact ⟨connectBus_of_ne_width hwidth c, addBusGate_of_ne_width hwidth c _, addBusGate_of_ne_width hwidth c _,
    fun ctl => addBusGate_of_ne_width hwidth c _⟩

end Sys2Proof.Machine
end
